-- ==== Sys2Proof/Word.lean ====
section
/-! DEFINITION. The word types of the scroll-compositor core (SCC): the byte of every buffer (00_scope.md R13) and
the 32-bit word of the command channel (30_encoding.md R80, R81). -/

namespace Sys2Proof

/-- A byte: one cell of the hardware buffer or of the message buffer, bit 7 the most significant (R13). -/
abbrev Byte := BitVec 8

/-- A command word or a response word (R80): bits are numbered 31 (most significant) down to 0. -/
abbrev Word := BitVec 32

end Sys2Proof
end

