-- ==== Sys2Proof/Syntax.lean ====
section
/-! DEFINITION. The command set SCC-CMD 1.0 (30_encoding.md R83, R84): one constructor for each of the sixteen rows of
spec/opcode_table.json, its operands the fields of R83 at the widths R83 gives them. -/

namespace Sys2Proof

/-- The sixteen rows of the opcode map (R84): fourteen commands and the two reserved opcodes (R87), which carry the
28 bits below the opcode because R87 makes them illegal "whatever its other bits". -/
inductive Instr where
  /-- NOP: does nothing (R175) -/
  | nop
  /-- CLEAR value: fills the data bytes of the hardware buffer (R110) -/
  | clear (value : BitVec 8)
  /-- PLOT col, row, on: sets or clears one bit column (R111) -/
  | plot (col : BitVec 16) (row : BitVec 8) (isOn : Bool)
  /-- LDMSG row, col, data: stores one message-buffer byte (R121) -/
  | ldmsg (row : BitVec 3) (col : BitVec 16) (data : BitVec 8)
  /-- NEWMSG w: a fresh blank message buffer of `w` byte columns (R120) -/
  | newmsg (w : BitVec 16)
  /-- COMPOSE offset: the splice, without transmission (R130) -/
  | compose (offset : BitVec 24)
  /-- XMIT: sends the hardware buffer as it stands (R150) -/
  | xmit
  /-- DISPLAY offset: compose, then transmit (R160) -/
  | display (offset : BitVec 24)
  /-- SCROLL start: the offset sweep (R161) -/
  | scroll (start : BitVec 24)
  /-- CLRF: clears the sticky flags (R176) -/
  | clrf
  /-- RDHB row, col: reads one hardware-buffer byte (R112) -/
  | rdhb (row : BitVec 3) (col : BitVec 16)
  /-- RDMB row, col: reads one live message-buffer byte (R122) -/
  | rdmb (row : BitVec 3) (col : BitVec 16)
  /-- RDST: reads STATUS and W (R177) -/
  | rdst
  /-- RDCFG: reads the construction parameters (R179) -/
  | rdcfg
  /-- reserved opcode 0xE: completes ILLEGAL (R87) -/
  | reservedE (low : BitVec 28)
  /-- reserved opcode 0xF: completes ILLEGAL (R87) -/
  | reservedF (low : BitVec 28)
deriving DecidableEq, Repr

end Sys2Proof
end

