-- ==== Sys2Proof/WellFormed.lean ====
section
/-! DEFINITION. Which decoded rows are commands (30_encoding.md R87, R88), and the assembler's source lines with their
operand check: "An operand that does not fit its field is an assembly error, not a truncation" (R94). -/

namespace Sys2Proof

/-- A well-formed instruction is one of the fourteen commands; a word of a reserved opcode is illegal (R87, R88). Every
operand fits its field by its type. -/
def Instr.wellFormed : Instr → Bool
  | .nop | .clear _ | .plot _ _ _ | .ldmsg _ _ _ | .newmsg _ | .compose _ | .xmit | .display _ | .scroll _ => true
  | .clrf | .rdhb _ _ | .rdmb _ _ | .rdst | .rdcfg => true
  | .reservedE _ | .reservedF _ => false

/-- A line of the assembler notation of R94 and R95: a mnemonic with unsigned operands of any size, as a host writes it. -/
inductive AsmLine where
  | nop
  | clear (value : Nat)
  | plot (col row isOn : Nat)
  | ldmsg (row col data : Nat)
  | newmsg (w : Nat)
  | compose (offset : Nat)
  | xmit
  | display (offset : Nat)
  | scroll (start : Nat)
  | clrf
  | rdhb (row col : Nat)
  | rdmb (row col : Nat)
  | rdst
  | rdcfg
  /-- `CLS` (R95) -/
  | cls
  /-- `SETPX col, row` (R95) -/
  | setpx (col row : Nat)
  /-- `CLRPX col, row` (R95) -/
  | clrpx (col row : Nat)
  /-- `GLYPH j, b0, …, b7` (R95): the eight row bytes of one character -/
  | glyph (j b0 b1 b2 b3 b4 b5 b6 b7 : Nat)
  /-- `SHOW` (R95) -/
  | showFrame
deriving DecidableEq, Repr

/-- Every operand fits its field (R83, R94). -/
def AsmLine.wellFormed : AsmLine → Bool
  | .nop | .xmit | .clrf | .rdst | .rdcfg | .cls | .showFrame => true
  | .clear value => value < 2 ^ 8
  | .plot col row isOn => col < 2 ^ 16 && row < 2 ^ 8 && isOn < 2
  | .ldmsg row col data => row < 2 ^ 3 && col < 2 ^ 16 && data < 2 ^ 8
  | .newmsg w => w < 2 ^ 16
  | .compose offset => offset < 2 ^ 24
  | .display offset => offset < 2 ^ 24
  | .scroll start => start < 2 ^ 24
  | .rdhb row col => row < 2 ^ 3 && col < 2 ^ 16
  | .rdmb row col => row < 2 ^ 3 && col < 2 ^ 16
  | .setpx col row => col < 2 ^ 16 && row < 2 ^ 8
  | .clrpx col row => col < 2 ^ 16 && row < 2 ^ 8
  | .glyph j b0 b1 b2 b3 b4 b5 b6 b7 =>
    j < 2 ^ 16 && [b0, b1, b2, b3, b4, b5, b6, b7].all (· < 2 ^ 8)

end Sys2Proof
end

