-- ==== Sys2Proof/Decode.lean ====
section
/-! DEFINITION. The opcode map (30_encoding.md R84), the decoder (R90) and the encoder, written from the field layout of
R82. -/

namespace Sys2Proof

/-- One row of the opcode map (R84). -/
structure OpRow where
  mnemonic : String
  mask     : Word
  pattern  : Word
deriving DecidableEq, Repr

/-- The fourteen command rows of R84, in the order of `op`. -/
def commandRows : List OpRow :=
  [ ⟨"NOP",     0xFFFFFFFF#32, 0x00000000#32⟩,
    ⟨"CLEAR",   0xFFFFFF00#32, 0x10000000#32⟩,
    ⟨"PLOT",    0xFE000000#32, 0x20000000#32⟩,
    ⟨"LDMSG",   0xF8000000#32, 0x30000000#32⟩,
    ⟨"NEWMSG",  0xFF0000FF#32, 0x40000000#32⟩,
    ⟨"COMPOSE", 0xFF000000#32, 0x50000000#32⟩,
    ⟨"XMIT",    0xFFFFFFFF#32, 0x60000000#32⟩,
    ⟨"DISPLAY", 0xFF000000#32, 0x70000000#32⟩,
    ⟨"SCROLL",  0xFF000000#32, 0x80000000#32⟩,
    ⟨"CLRF",    0xFFFFFFFF#32, 0x90000000#32⟩,
    ⟨"RDHB",    0xF80000FF#32, 0xA0000000#32⟩,
    ⟨"RDMB",    0xF80000FF#32, 0xB0000000#32⟩,
    ⟨"RDST",    0xFFFFFFFF#32, 0xC0000000#32⟩,
    ⟨"RDCFG",   0xFFFFFFFF#32, 0xD0000000#32⟩ ]

/-- The two reserved rows of R84 (R87). -/
def reservedRows : List OpRow :=
  [ ⟨"RESERVED_E", 0xF0000000#32, 0xE0000000#32⟩,
    ⟨"RESERVED_F", 0xF0000000#32, 0xF0000000#32⟩ ]

/-- The mnemonic of an instruction's row (R84). -/
def Instr.mnemonic : Instr → String
  | .nop => "NOP"
  | .clear _ => "CLEAR"
  | .plot _ _ _ => "PLOT"
  | .ldmsg _ _ _ => "LDMSG"
  | .newmsg _ => "NEWMSG"
  | .compose _ => "COMPOSE"
  | .xmit => "XMIT"
  | .display _ => "DISPLAY"
  | .scroll _ => "SCROLL"
  | .clrf => "CLRF"
  | .rdhb _ _ => "RDHB"
  | .rdmb _ _ => "RDMB"
  | .rdst => "RDST"
  | .rdcfg => "RDCFG"
  | .reservedE _ => "RESERVED_E"
  | .reservedF _ => "RESERVED_F"

/-- Why a word is not read as an instruction: a must-be-zero bit of the format of its opcode is 1 (R86). -/
inductive Illegal where
  | mustBeZero (op : BitVec 4)
deriving DecidableEq, Repr

/-- The opcode field `op = cw[31:28]` (R82). -/
def opField (cw : Word) : BitVec 4 := cw.extractLsb' 28 4


/-- `cw[26:24]`, the row of formats M and R (R82). -/
def rowField (cw : Word) : BitVec 3 := cw.extractLsb' 24 3

/-- `cw[24]`, the `on` bit of format P (R82). -/
def onField (cw : Word) : Bool := cw.getLsbD 24

/-- `cw[23:8]`: `col` of formats P, M, R and `w` of format W (R82). -/
def colField (cw : Word) : BitVec 16 := cw.extractLsb' 8 16

/-- `cw[7:0]`: `value`, `data`, or the row of format P (R82). -/
def lowByte (cw : Word) : BitVec 8 := cw.extractLsb' 0 8

/-- `cw[23:0]`, the offset of format O (R82). -/
def offsetField (cw : Word) : BitVec 24 := cw.extractLsb' 0 24

/-- `cw[27:0]`: all bits below the opcode. -/
def belowOp (cw : Word) : BitVec 28 := cw.extractLsb' 0 28

/-- The instruction a row's check lets through, or the rejection by name (R86, R90). -/
def checked (cw mask pattern : Word) (i : Instr) : Except Illegal Instr :=
  if cw &&& mask = pattern then .ok i else .error (.mustBeZero (opField cw))

/-- `decode(cw)` of R90: the row of `op`, then its mask, then the fields of R82. Total on all `2^32` words. -/
def decode (cw : Word) : Except Illegal Instr :=
  match (opField cw).toNat with
  | 0x0 => checked cw 0xFFFFFFFF#32 0x00000000#32 .nop
  | 0x1 => checked cw 0xFFFFFF00#32 0x10000000#32 (.clear (lowByte cw))
  | 0x2 => checked cw 0xFE000000#32 0x20000000#32 (.plot (colField cw) (lowByte cw) (onField cw))
  | 0x3 => checked cw 0xF8000000#32 0x30000000#32 (.ldmsg (rowField cw) (colField cw) (lowByte cw))
  | 0x4 => checked cw 0xFF0000FF#32 0x40000000#32 (.newmsg (colField cw))
  | 0x5 => checked cw 0xFF000000#32 0x50000000#32 (.compose (offsetField cw))
  | 0x6 => checked cw 0xFFFFFFFF#32 0x60000000#32 .xmit
  | 0x7 => checked cw 0xFF000000#32 0x70000000#32 (.display (offsetField cw))
  | 0x8 => checked cw 0xFF000000#32 0x80000000#32 (.scroll (offsetField cw))
  | 0x9 => checked cw 0xFFFFFFFF#32 0x90000000#32 .clrf
  | 0xA => checked cw 0xF80000FF#32 0xA0000000#32 (.rdhb (rowField cw) (colField cw))
  | 0xB => checked cw 0xF80000FF#32 0xB0000000#32 (.rdmb (rowField cw) (colField cw))
  | 0xC => checked cw 0xFFFFFFFF#32 0xC0000000#32 .rdst
  | 0xD => checked cw 0xFFFFFFFF#32 0xD0000000#32 .rdcfg
  | 0xE => .ok (.reservedE (belowOp cw))
  | _   => .ok (.reservedF (belowOp cw))

/-- The verdict of R90: the word is one of the fourteen commands. Every other word is illegal (R86, R87). -/
def isCommand (cw : Word) : Bool :=
  match decode cw with
  | .ok i => i.wellFormed
  | .error _ => false

/-- Format Z (R82): the opcode, then 28 zeros. -/
def formatZ (op : BitVec 4) : Word := op ++ 0#28

/-- Format V (R82). -/
def formatV (op : BitVec 4) (value : BitVec 8) : Word := op ++ 0#20 ++ value

/-- Format P (R82): the `on` bit is `cw[24]`. -/
def formatP (op : BitVec 4) (isOn : Bool) (col : BitVec 16) (row : BitVec 8) : Word :=
  op ++ 0#3 ++ BitVec.ofBool isOn ++ col ++ row

/-- Format M (R82). -/
def formatM (op : BitVec 4) (row : BitVec 3) (col : BitVec 16) (data : BitVec 8) : Word :=
  op ++ 0#1 ++ row ++ col ++ data

/-- Format W (R82). -/
def formatW (op : BitVec 4) (w : BitVec 16) : Word := op ++ 0#4 ++ w ++ 0#8

/-- Format O (R82). -/
def formatO (op : BitVec 4) (offset : BitVec 24) : Word := op ++ 0#4 ++ offset

/-- Format R (R82). -/
def formatR (op : BitVec 4) (row : BitVec 3) (col : BitVec 16) : Word := op ++ 0#1 ++ row ++ col ++ 0#8

/-- The word of an instruction, from R82 and R84. -/
def encode : Instr → Word
  | .nop => formatZ 0x0#4
  | .clear value => formatV 0x1#4 value
  | .plot col row isOn => formatP 0x2#4 isOn col row
  | .ldmsg row col data => formatM 0x3#4 row col data
  | .newmsg w => formatW 0x4#4 w
  | .compose offset => formatO 0x5#4 offset
  | .xmit => formatZ 0x6#4
  | .display offset => formatO 0x7#4 offset
  | .scroll start => formatO 0x8#4 start
  | .clrf => formatZ 0x9#4
  | .rdhb row col => formatR 0xA#4 row col
  | .rdmb row col => formatR 0xB#4 row col
  | .rdst => formatZ 0xC#4
  | .rdcfg => formatZ 0xD#4
  | .reservedE low => 0xE#4 ++ low
  | .reservedF low => 0xF#4 ++ low

/-- The instruction the decoder reads from an instruction whose bits are `w`, numbered as spec/opcode_table.json numbers
them: one 32-bit word, bit 0 least significant (R81, R82). -/
def decodeTableWord (nbits w : Nat) : Option Instr :=
  if nbits ≤ 32 then (decode (BitVec.ofNat 32 (w % 2 ^ nbits))).toOption else none

end Sys2Proof
end

