-- ==== Sys2Proof/Config.lean ====
section
/-! DEFINITION. The construction parameters (00_scope.md R5 to R11), the types of the free values, and the free values
themselves. A free value is an opaque constant: nothing in Lean can evaluate it, so no claim can rest on what it is. -/

namespace Sys2Proof

/-- The two byte spaces of the block (20_memory.md R50, R51, R52); the third, the link stream, is write-only. -/
inductive Space where
  /-- the hardware buffer `HB` -/
  | hb
  /-- the message buffer `MB` -/
  | mb
deriving DecidableEq, Repr

/-- What the link answers to one row write (43_transmit.md R151; 93_implementation_defined.md U6): success, failure,
or never. `never` is the stalled bus of R156 and R226. -/
inductive LinkAnswer where
  | ok
  | error
  | never
deriving DecidableEq, Repr, Inhabited

/-- The parameters that can differ between two constructed blocks and that a rule reads (R7, R8). They are fixed at
construction (R5). -/
structure Params where
  /-- `N`: the number of daisy-chained 8×8 modules (R7) -/
  n : Nat
  /-- `WMAX`: the capacity of the message buffer in byte columns (R8) -/
  wmax : Nat
deriving DecidableEq, Repr

/-- The ranges R7 and R8 give the parameters: `1 ≤ N ≤ 255` and `1 ≤ WMAX ≤ 65535`. -/
abbrev Params.wf (p : Params) : Prop := 1 ≤ p.n ∧ p.n ≤ 255 ∧ 1 ≤ p.wmax ∧ p.wmax ≤ 65535

/-- `COLUMNS = 8·N`, the panel width in bit columns (R7). -/
def Params.columns (p : Params) : Nat := 8 * p.n

namespace Config

/-- The geometry of the block `State.reset` constructs. DESIGN CHOICE (log entry 1): the spec fixes no geometry; these
are the parameters of its program P1 (95_test_vectors.md). No claim is limited to them. -/
def defaultParams : Params := { n := 5, wmax := 64 }

/-- FREE VALUE (R37, R38, U2, U3; log entry 3): the byte an address of a space holds after the `epoch`-th reset and
until a command writes it. -/
opaque powerOn : (epoch : Nat) → Space → (addr : Nat) → Byte

/-- FREE VALUE (R151, U6; log entry 4): the answer of the link to the `k`-th row write since construction, wherever the
environment's script in the state does not give it. -/
opaque linkAnswer : (k : Nat) → LinkAnswer

/-- FREE VALUE (R61, R153, R217, U4, U5; log entry 5): how many bytes of the `k`-th row write had reached the device,
when that write was answered `error` or was never answered. -/
opaque deliveredBytes : (k : Nat) → Nat

/-- OPEN PARAMETER (R11, D18, U8): whether bit 7 of a byte is the first on the wire, below the block's boundary. Read by no
rule of the spec, so by no definition of the model. -/
opaque linkMsbFirst : Bool

/-- OPEN PARAMETER (R10, R233, D19, U7): the minimum idle time between two frames of one SCROLL, by default zero. Read by
no rule of the spec, so by no definition of the model. -/
opaque frameGap : Nat

end Config

end Sys2Proof
end

