-- ==== Sys2Proof/Machine/State.lean ====
section
/-! DEFINITION. The state of the block (10_state.md R20 to R37), with the inputs the environment holds for it (host
channel, link answers) and the records of its outputs (responses, row writes), the reasons a step can stop, and reset. -/

namespace Sys2Proof.Machine

/-- The memory of one byte space: the cells some command has written since reset, addresses strictly rising. An unlisted
address holds no written value; what reading it gives is `State.hbByte` and `State.mbByte`'s business. -/
abbrev Memory := List Host.Cell

/-- The canonical form of a memory: addresses strictly rising. An unlisted address reads as "no value", and no cell equals
that. -/
abbrev Memory.wf (m : Memory) : Prop := (m.map Prod.fst).Pairwise (· < ·)

/-- Completion codes (60_exceptions.md R186). -/
inductive Code where
  | ok
  | txFail
  | illegal
  | range
deriving DecidableEq, Repr

/-- One row write as the link was given it, with its answer (43_transmit.md R151; `never` while it is outstanding). -/
structure RowWrite where
  bytes  : List Byte
  answer : LinkAnswer
deriving DecidableEq, Repr

/-- The link as the engine sees it (20_memory.md R53): the answers the environment has fixed in advance, and every row
write issued so far, oldest first. -/
structure Link where
  /-- the answers to the next row writes, the next one first; past its end an answer is `Config.linkAnswer` -/
  script : List LinkAnswer
  /-- every row write issued since construction (60_exceptions.md R207: a recorder of row writes) -/
  log    : List RowWrite
deriving DecidableEq, Repr

/-- How a transmission ends. -/
inductive TxResult where
  /-- every row write was answered `ok` -/
  | done
  /-- a row write was answered `error` (43_transmit.md R153) -/
  | failed
  /-- the write of this row is never answered (R156) -/
  | stalled (row : Fin 8)
deriving DecidableEq, Repr

/-- What the engine is doing between two steps (20_memory.md R67, 60_exceptions.md R210). -/
inductive Engine where
  /-- waiting for a command; the transient counters hold nothing (R33) -/
  | idle
  /-- blocked in a command on a row write the link never answers (43_transmit.md R156): `off` is the offset of a SCROLL
  sweep, nothing for XMIT and DISPLAY, and `row` the row of the outstanding write (R33, as log entry 12 reads it; DEDUCED) -/
  | executing (off : Option Nat) (row : Fin 8)
deriving DecidableEq, Repr

/-- What the host does to the block (00_scope.md R12, 30_encoding.md R80, 70_reset_and_hazards.md R215, R217). -/
inductive HostInput where
  /-- presents a command word on the channel -/
  | command (cw : Word)
  /-- asserts and releases the reset input -/
  | reset
  /-- presents a command word and asserts reset while the engine executes it, after `writes` of its row writes were
  issued, or after all of them where it issues fewer, and before its response (R217) -/
  | commandThenReset (cw : Word) (writes : Nat)
deriving DecidableEq, Repr

/-- The state: R20's (a) to (e), the parameter record, and the model's own fields for the environment. -/
structure State where
  /-- the parameter record of R5, fixed at construction: no step writes it -/
  params    : Params
  /-- the model's own: how many resets there have been, which draws the free reset bytes of R38 anew at each -/
  epoch     : Nat
  /-- `HB`'s data bytes at the addresses of R62 (R21, R22); the row-select column is computed, not stored (R24) -/
  hb        : Memory
  /-- `MB` at the addresses of R62 (R27) -/
  mb        : Memory
  /-- `W`, the message width in byte columns (R28) -/
  w         : BitVec 16
  /-- `STATUS` (R30): bit 0 TXF, bit 1 CMDF, bits 3:2 zero, bits 7:4 LAST -/
  status    : BitVec 8
  /-- idle, or blocked inside a command with the transient counters of R33 -/
  engine    : Engine
  /-- the link: the environment's answers and the record of the row writes (R53) -/
  link      : Link
  /-- the response words returned to the host, oldest first (R80, R92) -/
  responses : List Word
  /-- what the host will do next, in the order it does it (20_memory.md R66) -/
  host      : List HostInput
deriving DecidableEq, Repr

/-- The model has no fault: every failure the spec describes is a completion code the host reads and the machine goes on
(R194), and a stalled link is a step that changes nothing (R226). -/
inductive Fault
deriving DecidableEq, Repr

/-- Why a command gets no meaning. -/
inductive Refusal where
  /-- raised by `exec` for an instruction the model has given no meaning; no arm does. Safe. -/
  | notModelled (mnemonic : String)
  /-- raised by every meaning that is run while a command executes, which `step` never does: R67 makes the case impossible
  and R228 and U1 have a model refuse it. Safe. -/
  | commandWhileBusy
deriving DecidableEq, Repr

/-- A newly constructed block (R37, R215): nothing written, `W = 0`, `STATUS = 0`, no command executing, no row write
issued. The data bytes of `HB` and all of `MB` are free values of `Config.powerOn`. -/
def State.construct (p : Params) : State :=
  { params := p, epoch := 0, hb := [], mb := [], w := 0#16, status := 0#8, engine := .idle,
    link := { script := [], log := [] }, responses := [], host := [] }

/-- The machine right after reset (R216), for the geometry of log entry 1. -/
def State.reset : State := State.construct Config.defaultParams

end Sys2Proof.Machine
end

