-- ==== Sys2Proof/Machine/Flags.lean ====
section
/-! DEFINITION. STATUS (10_state.md R30) and the response word (30_encoding.md R92): the only flag computations of the
block. -/

namespace Sys2Proof.Machine

/-- The 4-bit completion code (60_exceptions.md R186). -/
def Code.bits : Code → BitVec 4
  | .ok => 0#4
  | .txFail => 1#4
  | .illegal => 2#4
  | .range => 3#4

/-- `STATUS.TXF`, bit 0. -/
def Status.txf (st : BitVec 8) : Bool := st.getLsbD 0

/-- `STATUS.CMDF`, bit 1. -/
def Status.cmdf (st : BitVec 8) : Bool := st.getLsbD 1

/-- `STATUS.LAST`, bits 7:4. -/
def Status.last (st : BitVec 8) : BitVec 4 := st.extractLsb' 4 4

/-- STATUS as RDST reads it: bits 3:2 are "reserved, read as 0" (R30). -/
def Status.read (st : BitVec 8) : BitVec 8 := st &&& 0xF3#8

/-- The sticky bits a completion code sets: TXF for TX_FAIL, CMDF for ILLEGAL and RANGE (R190). -/
def Code.sticky : Code → BitVec 8
  | .ok => 0x00#8
  | .txFail => 0x01#8
  | .illegal => 0x02#8
  | .range => 0x02#8

/-- The STATUS update of a completion (R190): `LAST <- code`, the sticky flags raised and never cleared, the reserved bits
not written. -/
def Status.record (code : Code) (st : BitVec 8) : BitVec 8 :=
  (st &&& 0x0F#8) ||| code.sticky ||| (code.bits ++ 0#4)

/-- CLRF's clearing of TXF and CMDF (45_system.md R176). -/
def Status.clearSticky (st : BitVec 8) : BitVec 8 := st &&& 0xFC#8

/-- `rw = {code, 0000, aux, data}` (R92). -/
def responseWord (code : Code) (aux : BitVec 16) (data : BitVec 8) : Word := code.bits ++ 0#4 ++ aux ++ data

end Sys2Proof.Machine
end

