-- ==== Sys2Proof/Machine/Operands.lean ====
section
/-! DEFINITION. Operand forms and pure arithmetic: the 8-bit operators of 00_scope.md R13, addresses (20_memory.md R62),
PLOT's wrap (40_buffer_ops.md R111), the offset decomposition, masks and shifts of the compositor (42_compose.md R131 to
R134), and the sweep's bound (44_display_scroll.md R163, R164). -/

namespace Sys2Proof.Machine

/-- `shl8(b, k)`: "bits shifted out on the left are dropped" (R13). -/
def shl8 (b : Byte) (k : Nat) : Byte := b <<< k

/-- `shr8(b, k)`: logical, zero fill; `shr8(b, 8) = 0` (R13). -/
def shr8 (b : Byte) (k : Nat) : Byte := b >>> k

/-- `not8(b)`: complement within 8 bits (R13). -/
def not8 (b : Byte) : Byte := ~~~b

/-- The eight rows in the order of every row loop, row 0 first (R15, R55). -/
def allRows : List (Fin 8) := [0, 1, 2, 3, 4, 5, 6, 7]

/-- The 3-bit row operand of LDMSG, RDHB and RDMB, which cannot be out of range (R60, R83). -/
def rowIndex (row : BitVec 3) : Fin 8 := ⟨row.toNat, row.isLt⟩

/-- `rowSelect(r) = shl8(1, 7 − r)` (10_state.md R23, R24): the constant last column of `HB`. -/
def rowSelect (r : Fin 8) : Byte := shl8 1#8 (7 - r.val)

/-- `HB[r][c]` is byte `r·(N+1) + c` of the hardware-buffer space (R62). -/
def hbAddr (p : Params) (r : Fin 8) (c : Nat) : Nat := r.val * (p.n + 1) + c

/-- `MB[r][j]` is byte `r·WMAX + j` of the message-buffer space (R62). -/
def mbAddr (p : Params) (r : Fin 8) (j : Nat) : Nat := r.val * p.wmax + j

/-- PLOT's panel column `x = col mod COLUMNS` (R111). -/
def plotColumn (p : Params) (col : BitVec 16) : Nat := col.toNat % p.columns

/-- PLOT's row `r = row mod 8` (R111). -/
def plotRow (row : BitVec 8) : Fin 8 := ⟨row.toNat % 8, Nat.mod_lt _ (by decide)⟩

/-- The segment of a panel column, `x div 8` (R26, R111). -/
def segmentOf (x : Nat) : Nat := x / 8

/-- The bit of its segment's byte that a panel column is, `7 − (x mod 8)`: the most significant is leftmost (R26). -/
def bitOf (x : Nat) : Nat := 7 - x % 8

/-- The byte PLOT writes back: one bit set or cleared (R111). -/
def plotByte (isOn : Bool) (bit : Nat) (b : Byte) : Byte :=
  if isOn then b ||| shl8 1#8 bit else b &&& not8 (shl8 1#8 bit)

/-- `k = offset mod 8`, the sub-byte shift (R131). -/
def localOffset (offset : Nat) : Nat := offset % 8

/-- `ss = offset div 8`, the starting byte column (R131). -/
def startingSegment (offset : Nat) : Nat := offset / 8

/-- `rightMask(k) = not8(shl8(0xFF, k))` (R133). -/
def rightMask (k : Nat) : Byte := not8 (shl8 0xFF#8 k)

/-- `leftMask(k) = not8(rightMask(k))` (R133). -/
def leftMask (k : Nat) : Byte := not8 (rightMask k)

/-- The output byte from two adjacent source bytes (R134, R135). -/
def spliceBytes (k : Nat) (cur next : Byte) : Byte :=
  (shl8 cur k &&& leftMask k) ||| (shr8 next (8 - k) &&& rightMask k)

/-- `bound = 8·W − 8·N`, a signed integer (R163). -/
def sweepBound (p : Params) (w : BitVec 16) : Int := 8 * (w.toNat : Int) - 8 * (p.n : Int)

/-- `last = max(start, bound − 1)` (R164). -/
def sweepLast (p : Params) (w : BitVec 16) (start : Nat) : Int := max (start : Int) (sweepBound p w - 1)

/-- How many frames `start..last` holds (R161, R164). -/
def sweepFrames (p : Params) (w : BitVec 16) (start : Nat) : Nat := (sweepLast p w start - start + 1).toNat

end Sys2Proof.Machine
end

