-- ==== Sys2Proof/Machine/Ops.lean ====
section
/-! DEFINITION. The named operations every meaning is built from: the channel, the two memories, completion and its error
codes, the compositing step, and the transmitter. -/

namespace Sys2Proof.Machine

/-! ## Updates of one field -/

def State.withHb (s : State) (m : Memory) : State := { s with hb := m }
def State.withMb (s : State) (m : Memory) : State := { s with mb := m }
def State.withW (s : State) (w : BitVec 16) : State := { s with w := w }
def State.withStatus (s : State) (st : BitVec 8) : State := { s with status := st }
def State.withEngine (s : State) (e : Engine) : State := { s with engine := e }
def State.withLink (s : State) (l : Link) : State := { s with link := l }
def State.withHost (s : State) (h : List HostInput) : State := { s with host := h }

/-- Return one response word to the host (30_encoding.md R92). -/
def State.respond (s : State) (rw : Word) : State := { s with responses := s.responses ++ [rw] }

/-! ## Memory -/

/-- The byte last written at an address, none where nothing has been written since reset. -/
def Memory.read? : Memory → Nat → Option Byte
  | [], _ => none
  | (a, b) :: rest, addr => if a = addr then some b else Memory.read? rest addr

/-- Write one byte, keeping the addresses strictly rising. -/
def Memory.write : Memory → Nat → Byte → Memory
  | [], addr, v => [(addr, v)]
  | (a, b) :: rest, addr, v =>
    if addr < a then (addr, v) :: (a, b) :: rest
    else if addr = a then (addr, v) :: rest
    else (a, b) :: Memory.write rest addr v

/-- Write a list of cells, first to last. -/
def Memory.writeAll (cells : List Host.Cell) (m : Memory) : Memory :=
  cells.foldl (fun acc cell => acc.write cell.1 cell.2) m

/-- The byte of an address: what was last written there, or the free value the address has held since reset (10_state.md
R38: "arbitrary but stable"). -/
def Memory.byteAt (m : Memory) (epoch : Nat) (space : Space) (addr : Nat) : Byte :=
  match m.read? addr with
  | some b => b
  | none => Config.powerOn epoch space addr

/-- `HB[r][c]` (00_scope.md R14): a data byte, or in column `N` the constant row-select byte (R23, R24). -/
def State.hbByte (s : State) (r : Fin 8) (c : Nat) : Byte :=
  if c = s.params.n then rowSelect r else s.hb.byteAt s.epoch .hb (hbAddr s.params r c)

/-- `HB[r][c] <- v` for a data column (R14, R25). -/
def State.writeHb (s : State) (r : Fin 8) (c : Nat) (v : Byte) : State :=
  s.withHb (s.hb.write (hbAddr s.params r c) v)

/-- `MB[r][j]` (R14). -/
def State.mbByte (s : State) (r : Fin 8) (j : Nat) : Byte := s.mb.byteAt s.epoch .mb (mbAddr s.params r j)

/-- `MB[r][j] <- v` (R14). -/
def State.writeMb (s : State) (r : Fin 8) (j : Nat) (v : Byte) : State :=
  s.withMb (s.mb.write (mbAddr s.params r j) v)

/-- The cells of `for r in 0..7: for c in 0..width-1: [r][c] <- f r c`. -/
def gridCells (addr : Fin 8 → Nat → Nat) (width : Nat) (f : Fin 8 → Nat → Byte) : List Host.Cell :=
  allRows.flatMap fun r => (List.range width).map fun c => (addr r c, f r c)

/-- Write every data byte of `HB` (the loop of 40_buffer_ops.md R110 and 42_compose.md R136). The row-select column is
not among them (R24). -/
def State.fillHb (s : State) (f : Fin 8 → Nat → Byte) : State :=
  s.withHb (s.hb.writeAll (gridCells (hbAddr s.params) s.params.n f))

/-- Zero-fill the message columns below `width` (41_message_ops.md R120). -/
def State.blankMb (s : State) (width : Nat) : State :=
  s.withMb (s.mb.writeAll (gridCells (mbAddr s.params) width (fun _ _ => 0x00#8)))

/-! ## The command channel and completion -/

/-- The `busy` output (20_memory.md R67, 30_encoding.md R80). -/
def State.busy (s : State) : Bool :=
  match s.engine with
  | .idle => false
  | .executing _ _ => true

/-- A command is accepted only when no command is executing (R67, R80); a model refuses overlapping commands (R228, U1). -/
def whenIdle (s : State) (t : State) : Host.Outcome State Fault Refusal :=
  match s.engine with
  | .idle => .next t
  | .executing _ _ => .refused .commandWhileBusy

/-- `complete(code, aux, data)` (R14, R92): return the response word and apply R190. When the code is not OK the response
carries `aux = 0` and `data = 0` (R92). -/
def State.complete (s : State) (code : Code) (aux : BitVec 16) (data : BitVec 8) : State :=
  (s.withStatus (Status.record code s.status)).respond
    (match code with
      | .ok => responseWord .ok aux data
      | c => responseWord c 0#16 0#8)

/-- `complete(OK)`. -/
def State.completeOk (s : State) : State := s.complete .ok 0#16 0#8

/-- TAKING AN ERROR, the block's whole exception mechanism (60_exceptions.md R188 to R192): the code goes to the response and
to LAST, its sticky flag is raised, and control goes nowhere. There is no return from it: "the engine accepts the next
command unconditionally" (R194). -/
def State.raiseError (s : State) (code : Code) : State := s.complete code 0#16 0#8

/-- The completion of RDST and RDCFG, which leaves STATUS untouched (R190). -/
def State.completeRead (s : State) (aux : BitVec 16) (data : BitVec 8) : State :=
  s.respond (responseWord .ok aux data)

/-! ## The compositing step -/

/-- The zero-filled source read: "out of range" is judged against `W` (42_compose.md R132). -/
def State.src (s : State) (r : Fin 8) (j : Nat) : Byte := if j < s.w.toNat then s.mbByte r j else 0x00#8

/-- `Splice(r, s, offset)` (R135). -/
def State.splice (s : State) (offset : Nat) (r : Fin 8) (seg : Nat) : Byte :=
  spliceBytes (localOffset offset) (s.src r (startingSegment offset + seg)) (s.src r (startingSegment offset + seg + 1))

/-- `Compose(offset)` (R136). -/
def State.composeAt (s : State) (offset : Nat) : State := s.fillHb (s.splice offset)

/-! ## The link and the transmitter -/

/-- The bytes of one row write: data bytes in increasing segment index, then the row-select byte (20_memory.md R54,
43_transmit.md R152). -/
def State.rowBytes (s : State) (r : Fin 8) : List Byte := (List.range (s.params.n + 1)).map (s.hbByte r)

/-- The answer the link gives to the `j`-th row write from now (R151): the environment's script, or past its end a free
value (U6). -/
def Link.answerAt (l : Link) (j : Nat) : LinkAnswer :=
  match l.script[j]? with
  | some a => a
  | none => Config.linkAnswer (l.log.length + j)

/-- `LinkWrite(bytes)` (R151): one row write goes to the link and its answer is used up. -/
def Link.write (l : Link) (bytes : List Byte) : Link :=
  { script := l.script.tail, log := l.log ++ [{ bytes := bytes, answer := l.answerAt 0 }] }

/-- The loop of `Transmit()` over the rows still to send (R152, R153, R156). -/
def Link.sendRows (rowBytes : Fin 8 → List Byte) : List (Fin 8) → Link → Link × TxResult
  | [], l => (l, .done)
  | r :: rest, l =>
    match l.answerAt 0 with
    | .ok => Link.sendRows rowBytes rest (l.write (rowBytes r))
    | .error => (l.write (rowBytes r), .failed)
    | .never => (l.write (rowBytes r), .stalled r)

/-- `Transmit()` (R152). -/
def State.transmit (s : State) : State × TxResult :=
  let sent := s.link.sendRows s.rowBytes allRows
  (s.withLink sent.1, sent.2)

/-- How a command that transmitted ends: OK, TX_FAIL, or not at all, the transient counters kept (R150, R153, R156,
R33). -/
def State.finish (s : State) (off : Option Nat) : TxResult → State
  | .done => s.completeOk
  | .failed => s.raiseError .txFail
  | .stalled row => s.withEngine (.executing off row)

/-- The frames of a sweep (44_display_scroll.md R161): `frames` of them from `off` on, each composed and then sent. Answers the
state, how the last transmission ended, and its offset. -/
def State.sweep : (frames : Nat) → (off : Nat) → State → State × TxResult × Nat
  | 0, off, s => (s, .done, off)
  | frames + 1, off, s =>
    let sent := (s.composeAt off).transmit
    match sent.2 with
    | .done => State.sweep frames (off + 1) sent.1
    | result => (sent.1, result, off)

/-! ## Reset -/

/-- The reset input at a state of a run (R215 to R217): construction of a new panel with the same parameters. "The device
is not told anything", so the record of the row writes stays, as do the responses already returned, the environment's
answers to come and the host's inputs to come; the free reset bytes are drawn anew. -/
def State.afterReset (s : State) : State :=
  { State.construct s.params with
    epoch := s.epoch + 1, link := s.link, responses := s.responses, host := s.host }

/-! ## The host's inputs -/

/-- The next thing the host does, where the engine takes it: a command only when no command executes (R67), reset at any
time (R216, R217). -/
def State.fetch (s : State) : Option (HostInput × State) :=
  match s.host with
  | [] => none
  | .command cw :: rest => if s.busy then none else some (.command cw, s.withHost rest)
  | .reset :: rest => some (.reset, s.withHost rest)
  | .commandThenReset cw k :: rest => some (.commandThenReset cw k, s.withHost rest)

/-- The link of a command cut by reset after `writes` of its row writes (R217): those writes were issued and their answers
used up; the later ones were not. -/
def Link.cutAfter (before after : Link) (writes : Nat) : Link :=
  let sent := (after.log.drop before.log.length).take writes
  { script := before.script.drop sent.length, log := before.log ++ sent }

/-- The host asserted reset while a command that would have reached `after` was executing from `before` (R217): "A command cut by
reset returns no response", and the state is that of R216. -/
def State.cutByReset (before after : State) (writes : Nat) : State :=
  (before.withLink (before.link.cutAfter after.link writes)).afterReset

end Sys2Proof.Machine
end

