-- ==== Sys2Proof/Machine/Buffer.lean ====
section
/-! DEFINITION. The hardware-buffer commands CLEAR, PLOT and RDHB (40_buffer_ops.md). -/

namespace Sys2Proof.Machine

/-- CLEAR (R110): every data byte becomes `value`; the row-select column is not written. -/
def execClear (value : BitVec 8) (s : State) : Host.Outcome State Fault Refusal :=
  whenIdle s (s.fillHb (fun _ _ => value)).completeOk

/-- PLOT (R111): one bit of one data byte, the coordinates wrapped; never an error. -/
def execPlot (col : BitVec 16) (row : BitVec 8) (isOn : Bool) (s : State) : Host.Outcome State Fault Refusal :=
  let x := plotColumn s.params col
  let r := plotRow row
  let seg := segmentOf x
  whenIdle s (s.writeHb r seg (plotByte isOn (bitOf x) (s.hbByte r seg))).completeOk

/-- RDHB (R112): column `N` is the row-select byte; beyond it RANGE. -/
def execRdhb (row : BitVec 3) (col : BitVec 16) (s : State) : Host.Outcome State Fault Refusal :=
  whenIdle s
    (if s.params.n < col.toNat then s.raiseError .range
     else s.complete .ok 0#16 (s.hbByte (rowIndex row) col.toNat))

end Sys2Proof.Machine
end

