-- ==== Sys2Proof/Machine/Compositor.lean ====
section
/-! DEFINITION. The compositor command COMPOSE (42_compose.md). -/

namespace Sys2Proof.Machine

/-- COMPOSE (R130): no offset is out of range, no early exit for an empty message, no row write. -/
def execCompose (offset : BitVec 24) (s : State) : Host.Outcome State Fault Refusal :=
  whenIdle s (s.composeAt offset.toNat).completeOk

end Sys2Proof.Machine
end

