-- ==== Sys2Proof/Machine/Display.lean ====
section
/-! DEFINITION. The display commands DISPLAY (one frame) and SCROLL (the offset sweep) (44_display_scroll.md). -/

namespace Sys2Proof.Machine

/-- DISPLAY (R160): compose all data bytes, then transmit (R165); an empty message does nothing (R162). -/
def execDisplay (offset : BitVec 24) (s : State) : Host.Outcome State Fault Refusal :=
  if s.w = 0#16 then whenIdle s s.completeOk
  else
    let sent := (s.composeAt offset.toNat).transmit
    whenIdle s (sent.1.finish none sent.2)

/-- SCROLL (R161): one composed and transmitted frame for each offset of `start..last` (R164); an empty message does nothing
(R162). -/
def execScroll (start : BitVec 24) (s : State) : Host.Outcome State Fault Refusal :=
  if s.w = 0#16 then whenIdle s s.completeOk
  else
    let swept := s.sweep (sweepFrames s.params s.w start.toNat) start.toNat
    whenIdle s (swept.1.finish (some swept.2.2) swept.2.1)

end Sys2Proof.Machine
end

