-- ==== Sys2Proof/Machine/Message.lean ====
section
/-! DEFINITION. The message-buffer commands NEWMSG, LDMSG and RDMB (41_message_ops.md). -/

namespace Sys2Proof.Machine

/-- NEWMSG (R120): zero-fill the columns below `w`, set `W`; RANGE beyond the capacity. -/
def execNewmsg (w : BitVec 16) (s : State) : Host.Outcome State Fault Refusal :=
  whenIdle s
    (if s.params.wmax < w.toNat then s.raiseError .range
     else ((s.blankMb w.toNat).withW w).completeOk)

/-- LDMSG (R121): store one byte of a live column; RANGE beyond `W`. -/
def execLdmsg (row : BitVec 3) (col : BitVec 16) (data : BitVec 8) (s : State) : Host.Outcome State Fault Refusal :=
  whenIdle s
    (if s.w.toNat ≤ col.toNat then s.raiseError .range
     else (s.writeMb (rowIndex row) col.toNat data).completeOk)

/-- RDMB (R122): read one byte of a live column; RANGE beyond `W`, no zero fill. -/
def execRdmb (row : BitVec 3) (col : BitVec 16) (s : State) : Host.Outcome State Fault Refusal :=
  whenIdle s
    (if s.w.toNat ≤ col.toNat then s.raiseError .range
     else s.complete .ok 0#16 (s.mbByte (rowIndex row) col.toNat))

end Sys2Proof.Machine
end

