-- ==== Sys2Proof/Machine/System.lean ====
section
/-! DEFINITION. The system commands NOP, CLRF, RDST and RDCFG (45_system.md), and the two reserved opcodes (30_encoding.md
R87). -/

namespace Sys2Proof.Machine

/-- NOP (R175): completes OK, overwriting LAST. -/
def execNop (s : State) : Host.Outcome State Fault Refusal := whenIdle s s.completeOk

/-- CLRF (R176): clears TXF and CMDF, then completes OK. -/
def execClrf (s : State) : Host.Outcome State Fault Refusal :=
  whenIdle s (s.withStatus (Status.clearSticky s.status)).completeOk

/-- RDST (R177): `W` and STATUS in the response, STATUS untouched. -/
def execRdst (s : State) : Host.Outcome State Fault Refusal := whenIdle s (s.completeRead s.w (Status.read s.status))

/-- RDCFG (R179): `WMAX` and `N` in the response (the read-only view CFG, 10_state.md R31), STATUS untouched. -/
def execRdcfg (s : State) : Host.Outcome State Fault Refusal :=
  whenIdle s (s.completeRead (BitVec.ofNat 16 s.params.wmax) (BitVec.ofNat 8 s.params.n))

/-- A word of opcode 0xE (R87): executes nothing and completes with code ILLEGAL (R86, 60_exceptions.md R188). -/
def execReservedE (_low : BitVec 28) (s : State) : Host.Outcome State Fault Refusal := whenIdle s (s.raiseError .illegal)

/-- A word of opcode 0xF (R87): executes nothing and completes with code ILLEGAL (R86, 60_exceptions.md R188). -/
def execReservedF (_low : BitVec 28) (s : State) : Host.Outcome State Fault Refusal := whenIdle s (s.raiseError .illegal)

end Sys2Proof.Machine
end

