-- ==== Sys2Proof/Machine/Transmitter.lean ====
section
/-! DEFINITION. The serial transmitter command XMIT (43_transmit.md). -/

namespace Sys2Proof.Machine

/-- XMIT (R150): one frame of `HB` as it stands, whatever `MB` and `W` hold. -/
def execXmit (s : State) : Host.Outcome State Fault Refusal :=
  let sent := s.transmit
  whenIdle s (sent.1.finish none sent.2)

end Sys2Proof.Machine
end

