-- ==== Sys2Proof/Machine/Dispatch.lean ====
section
/-! DEFINITION. One arm per row of the opcode map (30_encoding.md R84). -/

namespace Sys2Proof.Machine

def exec (i : Instr) (s : State) : Host.Outcome State Fault Refusal :=
  match i with
  | .nop => Sys2Proof.Machine.execNop s
  | .clear value => Sys2Proof.Machine.execClear value s
  | .plot col row isOn => Sys2Proof.Machine.execPlot col row isOn s
  | .ldmsg row col data => Sys2Proof.Machine.execLdmsg row col data s
  | .newmsg w => Sys2Proof.Machine.execNewmsg w s
  | .compose offset => Sys2Proof.Machine.execCompose offset s
  | .xmit => Sys2Proof.Machine.execXmit s
  | .display offset => Sys2Proof.Machine.execDisplay offset s
  | .scroll start => Sys2Proof.Machine.execScroll start s
  | .clrf => Sys2Proof.Machine.execClrf s
  | .rdhb row col => Sys2Proof.Machine.execRdhb row col s
  | .rdmb row col => Sys2Proof.Machine.execRdmb row col s
  | .rdst => Sys2Proof.Machine.execRdst s
  | .rdcfg => Sys2Proof.Machine.execRdcfg s
  | .reservedE low => Sys2Proof.Machine.execReservedE low s
  | .reservedF low => Sys2Proof.Machine.execReservedF low s

end Sys2Proof.Machine
end

