-- ==== Sys2Proof/Machine/Channel.lean ====
section
/-! DEFINITION. What becomes of one accepted word: its instruction, an illegal word's completion, and a word that reset cuts
(30_encoding.md R80, R86; 70_reset_and_hazards.md R217). -/

namespace Sys2Proof.Machine

/-- One accepted word: its instruction, or ILLEGAL where a must-be-zero bit is 1 (30_encoding.md R86, R90;
60_exceptions.md R191). -/
def runWord (cw : Word) (s : State) : Host.Outcome State Fault Refusal :=
  match decode cw with
  | .ok i => exec i s
  | .error _ => whenIdle s (s.raiseError .illegal)

/-- A word that reset cuts (R217). -/
def runCut (cw : Word) (writes : Nat) (s : State) : Host.Outcome State Fault Refusal :=
  match runWord cw s with
  | .next t => .next (s.cutByReset t writes)
  | .fault f => .fault f
  | .refused r => .refused r

end Sys2Proof.Machine
end

