-- ==== Sys2Proof/Machine/Step.lean ====
section
/-! DEFINITION. One step: the engine takes the host's next input, and a command runs to its completion, or to a row write
that is never answered (20_memory.md R66, R67; 70_reset_and_hazards.md R215 to R217, R226). -/

namespace Sys2Proof.Machine

/-- One step. With nothing to take, nothing changes: the block does nothing on its own (R230), and an engine blocked on a
stalled link stays so (R156, R226). A word that reaches a blocked engine is not accepted; reset frees it (R217). -/
def step (s : State) : Host.Outcome State Fault Refusal :=
  match s.fetch with
  | none => .next s
  | some (.command cw, t) => runWord cw t
  | some (.reset, t) => .next t.afterReset
  | some (.commandThenReset cw writes, t) => if t.busy then .next t.afterReset else runCut cw writes t

/-- `s` with the instruction whose bits are `w`, numbered as spec/opcode_table.json numbers them, as the word the host
presents next; the engine is made idle, because a blocked engine accepts no word (R67). -/
def State.withFetchWord (s : State) (nbits w : Nat) : State :=
  { s with host := .command (BitVec.ofNat 32 (w % 2 ^ nbits)) :: s.host, engine := .idle }

end Sys2Proof.Machine
end

