-- ==== Sys2Proof/Machine/Assembler.lean ====
section
/-! DEFINITION. The assembler notation of 30_encoding.md R94, the pseudo-instructions of R95, and the host's render contract
(41_message_ops.md R126, R127). Outside the block: they say which command words a host sends. -/

namespace Sys2Proof.Machine

/-- The commands of one source line, by the expansions of R95; none where an operand does not fit its field (R94). -/
def assembleLine (line : AsmLine) : Option (List Instr) :=
  if line.wellFormed then
    some (match line with
      | .nop => [.nop]
      | .clear value => [.clear (BitVec.ofNat 8 value)]
      | .plot col row isOn => [.plot (BitVec.ofNat 16 col) (BitVec.ofNat 8 row) (isOn == 1)]
      | .ldmsg row col data => [.ldmsg (BitVec.ofNat 3 row) (BitVec.ofNat 16 col) (BitVec.ofNat 8 data)]
      | .newmsg w => [.newmsg (BitVec.ofNat 16 w)]
      | .compose offset => [.compose (BitVec.ofNat 24 offset)]
      | .xmit => [.xmit]
      | .display offset => [.display (BitVec.ofNat 24 offset)]
      | .scroll start => [.scroll (BitVec.ofNat 24 start)]
      | .clrf => [.clrf]
      | .rdhb row col => [.rdhb (BitVec.ofNat 3 row) (BitVec.ofNat 16 col)]
      | .rdmb row col => [.rdmb (BitVec.ofNat 3 row) (BitVec.ofNat 16 col)]
      | .rdst => [.rdst]
      | .rdcfg => [.rdcfg]
      | .cls => [.clear 0#8]
      | .setpx col row => [.plot (BitVec.ofNat 16 col) (BitVec.ofNat 8 row) true]
      | .clrpx col row => [.plot (BitVec.ofNat 16 col) (BitVec.ofNat 8 row) false]
      | .glyph j b0 b1 b2 b3 b4 b5 b6 b7 =>
        [b0, b1, b2, b3, b4, b5, b6, b7].zipIdx.map fun (b, r) =>
          .ldmsg (BitVec.ofNat 3 r) (BitVec.ofNat 16 j) (BitVec.ofNat 8 b)
      | .showFrame => [.display 0#24])
  else none

/-- A program: the words of its lines, in order (R94). -/
def assemble (lines : List AsmLine) : Option (List Word) :=
  (lines.mapM assembleLine).map fun parts => parts.flatten.map encode

/-- A glyph: "an 8-byte bitmap, one byte per row" (00_scope.md R17). -/
abbrev Glyph := Vector Byte 8

/-- The line that loads one glyph into a byte column (R95, R127). -/
def glyphLine (j : Nat) (g : Glyph) : AsmLine :=
  .glyph j g[0].toNat g[1].toNat g[2].toNat g[3].toNat g[4].toNat g[5].toNat g[6].toNat g[7].toNat

/-- The glyph lines of the characters of a string from byte column `j` on; none where a character and the fallback are both
unavailable, which is the host's `UnsupportedGlyph` (R126, 60_exceptions.md R196). -/
def glyphLines (lookup : Char → Option Glyph) : Nat → List Char → Option (List AsmLine)
  | _, [] => some []
  | j, ch :: rest => do
    let g ← (lookup ch).orElse fun _ => lookup ' '
    let lines ← glyphLines lookup (j + 1) rest
    return glyphLine j g :: lines

/-- What the host sends to render a string: `NEWMSG L`, then one GLYPH per character (R126). DESIGN CHOICE (log entry 19): a
string longer than `WMAX`, for which R126 and 91_not_in_source.md N10 say nothing of what is sent, gives the same lines: it is
neither refused, cut nor split here, and the block answers its NEWMSG with RANGE. -/
def renderLines (lookup : Char → Option Glyph) (m : List Char) : Option (List AsmLine) := do
  let lines ← glyphLines lookup 0 m
  return .newmsg m.length :: lines

end Sys2Proof.Machine
end

