-- ==== Sys2Proof/Machine/Views.lean ====
section
/-! DEFINITION. What an observer reads off the state: panel pixels (10_state.md R26), the message bit stream (20_memory.md
R56), and what the device received (60_exceptions.md R207; 93_implementation_defined.md U4, U5). No meaning uses them. -/

namespace Sys2Proof.Machine

/-- Panel bit column `x` on row `r`: bit `7 − (x mod 8)` of `HB[r][x div 8]`; on is 1 (R22, R26). -/
def State.pixel (s : State) (r : Fin 8) (x : Nat) : Bool := (s.hbByte r (segmentOf x)).getLsbD (bitOf x)

/-- `MSGBITS = 8·W` (R28). -/
def State.msgBits (s : State) : Nat := 8 * s.w.toNat

/-- `stream_r(p)`: row `r` of the message as one bit stream, most significant bit first per byte, 0 outside the message
(R56). -/
def State.stream (s : State) (r : Fin 8) (p : Nat) : Bool :=
  if p < s.msgBits then (s.mbByte r (p / 8)).getLsbD (7 - p % 8) else false

/-- What the device received of the `k`-th row write: all of it where the link took it, else some first part of it, possibly
none and possibly all, a free value (R61, U4, U5). -/
def RowWrite.received (k : Nat) (write : RowWrite) : List Byte :=
  match write.answer with
  | .ok => write.bytes
  | .error => write.bytes.take (Config.deliveredBytes k)
  | .never => write.bytes.take (Config.deliveredBytes k)

/-- What the device received, write by write. -/
def Link.received (l : Link) : List (List Byte) := l.log.zipIdx.map fun (write, k) => write.received k

end Sys2Proof.Machine
end

