-- ==== Sys2Proof/Safety.lean ====
section
/-! DEFINITION. The terms claims use: what a safe run is, the invariant of the block, and the sequences of commands that two
of the spec's rules compare. -/

namespace Sys2Proof.Machine

/-- A safe run: `k` steps from `s` without a fault or a refusal, reaching `t`. -/
abbrev SafeRun (k : Nat) (s t : State) : Prop := Sys2Proof.core.run k s = .next t

/-- What every reachable state satisfies and every step keeps. -/
structure State.Inv (s : State) : Prop where
  /-- the parameters are in their ranges (00_scope.md R7, R8) -/
  params_wf : s.params.wf
  /-- the hardware buffer's cells are in canonical form -/
  hb_wf : s.hb.wf
  /-- the message memory's cells are in canonical form -/
  mb_wf : s.mb.wf
  /-- only data bytes of the hardware buffer are ever written: no row-select byte, no address outside (10_state.md R24, R25) -/
  hb_cells : ∀ a ∈ s.hb.map Prod.fst, ∃ r c, c < s.params.n ∧ a = hbAddr s.params r c
  /-- only bytes of the message memory are ever written (20_memory.md R52) -/
  mb_cells : ∀ a ∈ s.mb.map Prod.fst, ∃ r j, j < s.params.wmax ∧ a = mbAddr s.params r j
  /-- `0 ≤ W ≤ WMAX` (10_state.md R28) -/
  w_le : s.w.toNat ≤ s.params.wmax
  /-- a live message byte is never an unspecified one (10_state.md R38) -/
  mb_live : ∀ r j, j < s.w.toNat → (s.mb.read? (mbAddr s.params r j)).isSome
  /-- STATUS bits 3:2 are zero (10_state.md R30) -/
  status_reserved : s.status.extractLsb' 2 2 = 0#2
  /-- LAST is one of the four codes (60_exceptions.md R186) -/
  status_last : ∃ code : Code, Status.last s.status = code.bits
  /-- every row write has `N+1` bytes, the last one a row-select byte (20_memory.md R53, R54) -/
  log_rows : ∀ write ∈ s.link.log,
    write.bytes.length = s.params.n + 1 ∧ ∃ r, write.bytes.getLast? = some (rowSelect r)
  /-- every response is one that R92 allows -/
  responses_wf : ∀ rw ∈ s.responses, ∃ code aux data, rw = responseWord code aux data ∧
    (code ≠ .ok → aux = 0#16 ∧ data = 0#8)
  /-- a blocked engine waits on the last row write, the row its counter names of the buffer as it stands (43_transmit.md
  R152, R156; 10_state.md R33 as log entry 12 reads it) -/
  blocked : ∀ off row, s.engine = .executing off row →
    s.link.log.getLast? = some { bytes := s.rowBytes row, answer := .never }
  /-- the sweep counter never wraps (10_state.md R33, 44_display_scroll.md R161) -/
  off_lt : ∀ off row, s.engine = .executing (some off) row → off < 2 ^ 24

/-- The state a list of instructions reaches, one after the other; none where one of them does not answer a next state. -/
def execList : List Instr → State → Option State
  | [], s => some s
  | i :: rest, s =>
    match exec i s with
    | .next t => execList rest t
    | .fault _ => none
    | .refused _ => none

/-- The last command completed, with code OK (60_exceptions.md R186, R190). -/
def State.completedOk (s : State) : Bool := !s.busy && Status.last s.status == Code.ok.bits

/-- The commands `DISPLAY off; DISPLAY off+1; …` of the host that owns the loop, `frames` of them, cut after the first that does
not complete OK (44_display_scroll.md R167). -/
def displaysUntilFailure : (frames : Nat) → (off : Nat) → State → Option State
  | 0, _, s => some s
  | frames + 1, off, s =>
    match exec (.display (BitVec.ofNat 24 off)) s with
    | .next t =>
      match t.completedOk with
      | true => displaysUntilFailure frames (off + 1) t
      | false => some t
    | .fault _ => none
    | .refused _ => none

end Sys2Proof.Machine
end

