-- ==== Sys2Proof/Certificates/Slice0/Obligations.lean ====
section
/-! DEFINITION. The statements for the provers, in the order of the spec's files. Each docstring names the rule it formalises;
`cites` and `quote` stand in OBLIGATIONS.json. -/

open Sys2Proof Sys2Proof.Machine

/-! ## Encoding (30_encoding.md) -/

/-- R82, R84: decoding the word of an instruction gives the instruction back, every operand at every value; that a reserved row
is an instruction is log entry 10. -/
def Obligations.DecodeOfEncodeIsIdentity : Prop :=
  ∀ i : Instr, decode (encode i) = .ok i

/-- R82, R84, R86: a word the decoder reads is the word of the instruction it reads: no bit is dropped. That a reserved row is an
instruction is log entry 10. -/
def Obligations.EncodeOfDecodeIsIdentity : Prop :=
  ∀ (cw : Word) (i : Instr), decode cw = .ok i → encode i = cw

/-- R84: a word is of a row of the map exactly when `cw & mask = match`, and the rows are pairwise disjoint. R84 says so of the
fourteen command rows; that the decoder also reads a word of a reserved row as an instruction, one that completes ILLEGAL where R90
says Illegal, is the model's reading (log entry 10). -/
def Obligations.CommandOfRowIffMaskMatches : Prop :=
  (∀ cw : Word, ∀ row ∈ commandRows ++ reservedRows,
    (cw &&& row.mask = row.pattern ↔ ∃ i, decode cw = .ok i ∧ i.mnemonic = row.mnemonic)) ∧
  (commandRows ++ reservedRows).Pairwise (fun a b => ∀ cw : Word, ¬ (cw &&& a.mask = a.pattern ∧ cw &&& b.mask = b.pattern))

/-- R94: the spec's worked encodings, and the words of its examples, decode to the commands they stand for. -/
def Obligations.WorkedEncodingsDecode : Prop :=
  decode 0x2100090A#32 = .ok (.plot 9#16 10#8 true) ∧
  decode 0x330001F8#32 = .ok (.ldmsg 3#3 1#16 0xF8#8) ∧
  decode 0x40000200#32 = .ok (.newmsg 2#16) ∧
  decode 0x50000004#32 = .ok (.compose 4#24) ∧
  decode 0xA7000500#32 = .ok (.rdhb 7#3 5#16) ∧
  decode 0x100000A5#32 = .ok (.clear 0xA5#8) ∧
  decode 0x70000004#32 = .ok (.display 4#24) ∧
  decode 0x60000000#32 = .ok .xmit ∧
  decode 0xC0000000#32 = .ok .rdst

/-! ## The step and the channel (20_memory.md, 60_exceptions.md) -/

/-- R66, R80: where the engine is idle and the host presents a word that decodes to `i`, the step is `exec i`, after the word
was taken off the channel. -/
def Obligations.StepRunsDecodedCommand : Prop :=
  ∀ (s : State) (cw : Word) (rest : List HostInput) (i : Instr),
    s.engine = .idle → s.host = .command cw :: rest → decode cw = .ok i →
    step s = exec i { s with host := rest }

/-- R86, R87, R188: a word that matches no command row executes nothing and completes with code ILLEGAL. -/
def Obligations.IllegalWordCompletesIllegal : Prop :=
  ∀ (s : State) (cw : Word) (rest : List HostInput),
    s.engine = .idle → s.host = .command cw :: rest →
    (∀ row ∈ commandRows, cw &&& row.mask ≠ row.pattern) →
    step s = .next { s with
      host := rest, status := Status.record .illegal s.status, responses := s.responses ++ [0x20000000#32] }

/-- R87: an instruction of either reserved opcode completes with code ILLEGAL, whatever its other bits; that a reserved row is an
instruction is log entry 10. -/
def Obligations.ReservedOpcodesCompleteIllegal : Prop :=
  ∀ (s : State) (low : BitVec 28), s.engine = .idle →
    exec (.reservedE low) s = .next { s with
      status := Status.record .illegal s.status, responses := s.responses ++ [0x20000000#32] } ∧
    exec (.reservedF low) s = .next { s with
      status := Status.record .illegal s.status, responses := s.responses ++ [0x20000000#32] }

/-- R67, R228: while a command executes no second one is run, and a word that reaches the channel is not accepted. The refusal
and the unchanged step are the model's choices (log entry 6). -/
def Obligations.BusyEngineTakesNoCommand : Prop :=
  ∀ (s : State) (off : Option Nat) (row : Fin 8), s.engine = .executing off row →
    (∀ i, exec i s = .refused .commandWhileBusy) ∧
    (∀ cw rest, s.host = .command cw :: rest → step s = .next s)

/-- R194: in an idle engine every instruction answers a next state, whatever the flags and codes of earlier commands. -/
def Obligations.EveryInstructionRuns : Prop :=
  ∀ (i : Instr) (s : State), s.engine = .idle → ∃ t, exec i s = .next t

/-! ## Hardware-buffer commands (40_buffer_ops.md) -/

/-- R110: CLEAR sets every data byte to the value, leaves the row-select column, and changes nothing else but LAST and the
response. -/
def Obligations.ClearFillsEveryDataByte : Prop :=
  ∀ (s : State) (value : BitVec 8), s.engine = .idle →
    ∃ t, exec (.clear value) s = .next t ∧
      (∀ r c, c < s.params.n → t.hbByte r c = value) ∧
      (∀ r : Fin 8, t.hbByte r s.params.n = shl8 1#8 (7 - r.val)) ∧
      t = { s with
        hb := t.hb, status := Status.record .ok s.status, responses := s.responses ++ [0x00000000#32] }

/-- R111: PLOT sets or clears one bit of one data byte, at the wrapped coordinates, and every other byte keeps its value. -/
def Obligations.PlotChangesOneByte : Prop :=
  ∀ (s : State) (col : BitVec 16) (row : BitVec 8) (isOn : Bool), s.params.wf → s.engine = .idle →
    let x := col.toNat % (8 * s.params.n)
    let r : Fin 8 := ⟨row.toNat % 8, Nat.mod_lt _ (by decide)⟩
    let seg := x / 8
    let bit := 7 - x % 8
    seg < s.params.n ∧
    ∃ t, exec (.plot col row isOn) s = .next t ∧
      t.hbByte r seg =
        (if isOn then s.hbByte r seg ||| shl8 1#8 bit else s.hbByte r seg &&& not8 (shl8 1#8 bit)) ∧
      (∀ r' c', c' ≤ s.params.n → ¬ (r' = r ∧ c' = seg) → t.hbByte r' c' = s.hbByte r' c') ∧
      t = { s with
        hb := t.hb, status := Status.record .ok s.status, responses := s.responses ++ [0x00000000#32] }

/-- R26, R111: seen as pixels, PLOT gives the wrapped pixel the value `on` and leaves every other pixel of the panel. -/
def Obligations.PlotSetsOnePixel : Prop :=
  ∀ (s t : State) (col : BitVec 16) (row : BitVec 8) (isOn : Bool), s.params.wf →
    exec (.plot col row isOn) s = .next t →
    ∀ (r : Fin 8) (x : Nat), x < s.params.columns →
      t.pixel r x =
        if r.val = row.toNat % 8 ∧ x = col.toNat % s.params.columns then isOn else s.pixel r x

/-- R112: RDHB returns the byte of a column up to `N`, the row-select byte at `N`, and RANGE beyond; it changes no buffer. -/
def Obligations.RdhbReturnsByteOrRange : Prop :=
  ∀ (s : State) (row : BitVec 3) (col : BitVec 16), s.engine = .idle →
    exec (.rdhb row col) s = .next
      (if col.toNat > s.params.n then { s with
          status := Status.record .range s.status, responses := s.responses ++ [0x30000000#32] }
        else { s with
          status := Status.record .ok s.status,
          responses := s.responses ++ [responseWord .ok 0#16 (s.hbByte (rowIndex row) col.toNat)] }) ∧
    s.hbByte (rowIndex row) s.params.n = shl8 1#8 (7 - row.toNat)

/-! ## Message-buffer commands (41_message_ops.md) -/

/-- R120: NEWMSG zero-fills the columns below `w`, keeps the others and sets `W`; beyond the capacity it completes RANGE and
changes nothing else. -/
def Obligations.NewmsgMakesBlankMessage : Prop :=
  ∀ (s : State) (w : BitVec 16), s.engine = .idle →
    (w.toNat ≤ s.params.wmax →
      ∃ t, exec (.newmsg w) s = .next t ∧
        (∀ r j, j < w.toNat → t.mbByte r j = 0x00#8) ∧
        (∀ r j, w.toNat ≤ j → j < s.params.wmax → t.mbByte r j = s.mbByte r j) ∧
        t = { s with
          mb := t.mb, w := w, status := Status.record .ok s.status,
          responses := s.responses ++ [0x00000000#32] }) ∧
    (w.toNat > s.params.wmax →
      exec (.newmsg w) s = .next { s with
        status := Status.record .range s.status, responses := s.responses ++ [0x30000000#32] })

/-- R121: LDMSG stores one byte of a live column and keeps every other; at or beyond `W` it completes RANGE and changes nothing
else. -/
def Obligations.LdmsgStoresOneByte : Prop :=
  ∀ (s : State) (row : BitVec 3) (col : BitVec 16) (data : BitVec 8),
    s.w.toNat ≤ s.params.wmax → s.engine = .idle →
    (col.toNat < s.w.toNat →
      ∃ t, exec (.ldmsg row col data) s = .next t ∧
        t.mbByte (rowIndex row) col.toNat = data ∧
        (∀ r j, j < s.params.wmax → ¬ (r = rowIndex row ∧ j = col.toNat) → t.mbByte r j = s.mbByte r j) ∧
        t = { s with
          mb := t.mb, status := Status.record .ok s.status, responses := s.responses ++ [0x00000000#32] }) ∧
    (col.toNat ≥ s.w.toNat →
      exec (.ldmsg row col data) s = .next { s with
        status := Status.record .range s.status, responses := s.responses ++ [0x30000000#32] })

/-- R122: RDMB returns a byte of a live column, and RANGE at or beyond `W`; it has no side effect on the buffers. -/
def Obligations.RdmbReturnsByteOrRange : Prop :=
  ∀ (s : State) (row : BitVec 3) (col : BitVec 16), s.engine = .idle →
    exec (.rdmb row col) s = .next
      (if col.toNat ≥ s.w.toNat then { s with
          status := Status.record .range s.status, responses := s.responses ++ [0x30000000#32] }
        else { s with
          status := Status.record .ok s.status,
          responses := s.responses ++ [responseWord .ok 0#16 (s.mbByte (rowIndex row) col.toNat)] })

/-- R95, R128: the pseudo-instruction GLYPH assembles to eight commands, and after them RDMB returns the glyph's byte for every
row. -/
def Obligations.GlyphRoundTrip : Prop :=
  ∀ (s : State) (j : BitVec 16) (g : Glyph), s.engine = .idle → s.w.toNat ≤ s.params.wmax → j.toNat < s.w.toNat →
    ∃ (is : List Instr) (t : State),
      assembleLine (glyphLine j.toNat g) = some is ∧ is.length = 8 ∧ execList is s = some t ∧
      ∀ row : BitVec 3, exec (.rdmb row j) t = .next { t with
        status := Status.record .ok t.status, responses := t.responses ++ [responseWord .ok 0#16 g[rowIndex row]] }

/-- R128: a message byte stays what it is until the next LDMSG to that place or the next NEWMSG. -/
def Obligations.MessageByteStaysUntilWritten : Prop :=
  ∀ (i : Instr) (s t : State) (r : Fin 8) (j : Nat),
    s.w.toNat ≤ s.params.wmax → j < s.w.toNat → exec i s = .next t →
    (∀ w, i ≠ .newmsg w) → (∀ row col data, i = .ldmsg row col data → ¬ (rowIndex row = r ∧ col.toNat = j)) →
    t.mbByte r j = s.mbByte r j ∧ t.w = s.w

/-! ## The compositor (42_compose.md) -/

/-- R130, R136: COMPOSE writes the splice of the two adjacent source bytes, zero beyond `W`, into every data byte; it issues no
row write and changes nothing else but LAST and the response. -/
def Obligations.ComposeWritesSplice : Prop :=
  ∀ (s : State) (offset : BitVec 24), s.engine = .idle →
    let k := offset.toNat % 8
    let ss := offset.toNat / 8
    let src := fun (r : Fin 8) (j : Nat) => if j < s.w.toNat then s.mbByte r j else 0x00#8
    ∃ t, exec (.compose offset) s = .next t ∧
      (∀ r c, c < s.params.n → t.hbByte r c =
        (shl8 (src r (ss + c)) k &&& leftMask k) ||| (shr8 (src r (ss + c + 1)) (8 - k) &&& rightMask k)) ∧
      (∀ r : Fin 8, t.hbByte r s.params.n = shl8 1#8 (7 - r.val)) ∧
      t = { s with
        hb := t.hb, status := Status.record .ok s.status, responses := s.responses ++ [0x00000000#32] }

/-- R137: the masks are complementary and cover all eight bits. -/
def Obligations.MasksAreComplementary : Prop :=
  ∀ k, k ≤ 7 → leftMask k ||| rightMask k = 0xFF#8 ∧ leftMask k &&& rightMask k = 0x00#8

/-- R138: with logical shifts the masks are redundant, and the two terms of the splice have no 1 bit in common. -/
def Obligations.MasksAreRedundant : Prop :=
  ∀ (b b' : Byte) (k : Nat), k ≤ 7 →
    shl8 b k &&& leftMask k = shl8 b k ∧ shr8 b (8 - k) &&& rightMask k = shr8 b (8 - k) ∧
    shl8 b k &&& shr8 b' (8 - k) = 0x00#8

/-- R139: composing at any offset is slicing the message's bit stream. -/
def Obligations.SpliceSlicesTheStream : Prop :=
  ∀ (s : State) (offset : Nat) (r : Fin 8) (seg i : Nat), i ≤ 7 →
    (s.splice offset r seg).getLsbD (7 - i) = s.stream r (offset + 8 * seg + i)

/-- R26, R139: after COMPOSE, panel column `x` shows message bit column `offset + x`, or is dark beyond the message. -/
def Obligations.ComposedPanelShowsMessage : Prop :=
  ∀ (s t : State) (offset : BitVec 24), exec (.compose offset) s = .next t →
    ∀ (r : Fin 8) (x : Nat), x < s.params.columns →
      t.pixel r x = s.stream r (offset.toNat + x) ∧ (s.msgBits ≤ offset.toNat + x → t.pixel r x = false)

/-- R140: after `COMPOSE 0` the segments below `W` show the message columns unshifted and the others are zero. -/
def Obligations.ComposeZeroIsIdentity : Prop :=
  ∀ (s : State), s.engine = .idle →
    ∃ t, exec (.compose 0#24) s = .next t ∧
      ∀ r c, c < s.params.n → t.hbByte r c = if c < s.w.toNat then s.mbByte r c else 0x00#8

/-- R141: one offset further every row is shifted left by one bit column, and the next message bit column enters at the right;
eight offsets further every byte has moved one segment to the left. -/
def Obligations.SuccessiveOffsetsShiftLeft : Prop :=
  ∀ (s t u v : State) (o o1 o8 : BitVec 24), s.params.wf →
    o1.toNat = o.toNat + 1 → o8.toNat = o.toNat + 8 →
    exec (.compose o) s = .next t → exec (.compose o1) s = .next u → exec (.compose o8) s = .next v →
    (∀ r x, x + 1 < s.params.columns → u.pixel r x = t.pixel r (x + 1)) ∧
    (∀ r, u.pixel r (s.params.columns - 1) = s.stream r (o.toNat + s.params.columns)) ∧
    (∀ r c, c + 1 < s.params.n → v.hbByte r c = t.hbByte r (c + 1))

/-- R136: the composed frame does not depend on what the hardware buffer held. -/
def Obligations.ComposeIgnoresOldBuffer : Prop :=
  ∀ (s t u : State) (m : Memory) (offset : BitVec 24),
    exec (.compose offset) s = .next t → exec (.compose offset) { s with hb := m } = .next u →
    ∀ r c, c ≤ s.params.n → u.hbByte r c = t.hbByte r c

/-! ## The transmitter (43_transmit.md) -/

/-- R150, R152: with eight answers `ok`, XMIT sends the eight rows of `HB`, row 0 first, each its data bytes and then its
row-select byte, and completes OK; nothing else changes, whatever `MB` and `W` hold. -/
def Obligations.XmitSendsOneFrame : Prop :=
  ∀ s : State, s.engine = .idle → (∀ j < 8, s.link.answerAt j = .ok) →
    exec .xmit s = .next { s with
      link := ⟨s.link.script.drop 8, s.link.log ++ [0, 1, 2, 3, 4, 5, 6, 7].map (fun r : Fin 8 =>
        ⟨(List.range s.params.n).map (s.hbByte r) ++ [shl8 1#8 (7 - r.val)], .ok⟩)⟩,
      status := Status.record .ok s.status, responses := s.responses ++ [0x00000000#32] }

/-- R153, R187: the first row write answered `error` ends XMIT with TX_FAIL: the rows before it were sent, it is not repeated, the
rows after it are not sent, and `HB` is unchanged. -/
def Obligations.XmitStopsAtFirstError : Prop :=
  ∀ (s : State) (k : Fin 8), s.engine = .idle →
    (∀ j < k.val, s.link.answerAt j = .ok) → s.link.answerAt k.val = .error →
    exec .xmit s = .next { s with
      link := ⟨s.link.script.drop (k.val + 1), s.link.log ++
        (([0, 1, 2, 3, 4, 5, 6, 7].take k.val).map (fun r : Fin 8 => ⟨s.rowBytes r, .ok⟩) ++ [⟨s.rowBytes k, .error⟩])⟩,
      status := Status.record .txFail s.status, responses := s.responses ++ [0x10000000#32] }

/-- R156, R226: a row write that is never answered leaves XMIT executing, with no response and no further row. That it holds no
sweep counter, and that its row counter is the outstanding row, is the model's reading (log entry 12). That it stays so is
`OnlyResetEndsAStall`. -/
def Obligations.XmitStallsAtUnansweredRow : Prop :=
  ∀ (s : State) (k : Fin 8), s.engine = .idle →
    (∀ j < k.val, s.link.answerAt j = .ok) → s.link.answerAt k.val = .never →
    exec .xmit s = .next { s with
      link := ⟨s.link.script.drop (k.val + 1), s.link.log ++
        (([0, 1, 2, 3, 4, 5, 6, 7].take k.val).map (fun r : Fin 8 => ⟨s.rowBytes r, .ok⟩) ++ [⟨s.rowBytes k, .never⟩])⟩,
      engine := .executing none k }

/-- R156, R217: only reset ends a blocked command: as long as the host asserts none, any number of steps leaves the state
as it is. That a word presented to a blocked engine leaves the whole state as it is, the host's list with what stands behind the
word included, is the model's choice (log entry 6). -/
def Obligations.OnlyResetEndsAStall : Prop :=
  ∀ (s : State) (k : Nat), s.busy = true →
    (s.host = [] ∨ ∃ cw rest, s.host = .command cw :: rest) → SafeRun k s s

/-- R153, U4: of a frame that failed at row `k` the device received the rows before it whole, and some first part of row `k`
that the spec leaves open (log entry 5). -/
def Obligations.FailedFrameReachesDeviceInPart : Prop :=
  ∀ (s t : State) (k : Fin 8), exec .xmit s = .next t →
    (∀ j < k.val, s.link.answerAt j = .ok) → s.link.answerAt k.val = .error →
    ∃ part, part <+: s.rowBytes k ∧
      t.link.received = s.link.received ++ ([0, 1, 2, 3, 4, 5, 6, 7].take k.val).map s.rowBytes ++ [part]

/-- R25, R150, R230: only XMIT, DISPLAY and SCROLL issue row writes, and with nothing to take the block does nothing. -/
def Obligations.OnlyTransmittersIssueRowWrites : Prop :=
  (∀ (i : Instr) (s t : State), exec i s = .next t →
    i ≠ .xmit → (∀ o, i ≠ .display o) → (∀ o, i ≠ .scroll o) → t.link = s.link) ∧
  (∀ s : State, s.host = [] → step s = .next s)

/-! ## Display and scroll (44_display_scroll.md) -/

/-- R160, R165: with `W > 0` and eight answers `ok`, DISPLAY composes all data bytes, sends exactly that frame and completes
OK. -/
def Obligations.DisplayComposesThenSends : Prop :=
  ∀ (s : State) (offset : BitVec 24), s.engine = .idle → s.w ≠ 0#16 → (∀ j < 8, s.link.answerAt j = .ok) →
    ∃ t, exec (.display offset) s = .next t ∧
      (∀ r c, c < s.params.n → t.hbByte r c = s.splice offset.toNat r c) ∧
      t = { s with
        hb := t.hb,
        link := ⟨s.link.script.drop 8, s.link.log ++ [0, 1, 2, 3, 4, 5, 6, 7].map (fun r : Fin 8 =>
          ⟨(List.range s.params.n).map (s.splice offset.toNat r) ++ [shl8 1#8 (7 - r.val)], .ok⟩)⟩,
        status := Status.record .ok s.status, responses := s.responses ++ [0x00000000#32] }

/-- R160: for `W > 0`, DISPLAY is exactly COMPOSE followed by XMIT, in state change and in link traffic, whatever the link
answers; that the two runs get the same answers, also past the script, is the model's choice (log entry 4). -/
def Obligations.DisplayIsComposeThenXmit : Prop :=
  ∀ (s : State) (offset : BitVec 24), s.engine = .idle → s.w ≠ 0#16 →
    ∃ t u v, exec (.display offset) s = .next t ∧ exec (.compose offset) s = .next u ∧ exec .xmit u = .next v ∧
      t.hb = v.hb ∧ t.mb = v.mb ∧ t.w = v.w ∧ t.link = v.link ∧ t.engine = v.engine ∧ t.params = v.params ∧
      t.host = v.host ∧ (v.engine = .idle → t.status = v.status)

/-- R162: on an empty message DISPLAY and SCROLL issue no row write, leave `HB` untouched and complete OK. That `HB` stays
untouched is a choice: the spec's own D11, which the model follows where U11 would leave those bytes open (log entry 16). -/
def Obligations.EmptyMessageSendsNothing : Prop :=
  ∀ (s : State) (offset : BitVec 24), s.engine = .idle → s.w = 0#16 →
    exec (.display offset) s = .next { s with
      status := Status.record .ok s.status, responses := s.responses ++ [0x00000000#32] } ∧
    exec (.scroll offset) s = .next { s with
      status := Status.record .ok s.status, responses := s.responses ++ [0x00000000#32] }

/-- R153, R166: a DISPLAY whose row `k` is answered `error` completes TX_FAIL, sends no later row, and leaves the whole composed
frame in `HB`. -/
def Obligations.DisplayFailureKeepsFrame : Prop :=
  ∀ (s : State) (offset : BitVec 24) (k : Fin 8), s.engine = .idle → s.w ≠ 0#16 →
    (∀ j < k.val, s.link.answerAt j = .ok) → s.link.answerAt k.val = .error →
    ∃ t, exec (.display offset) s = .next t ∧
      (∀ r c, c < s.params.n → t.hbByte r c = s.splice offset.toNat r c) ∧
      t = { s with
        hb := t.hb,
        link := ⟨s.link.script.drop (k.val + 1), s.link.log ++
          (([0, 1, 2, 3, 4, 5, 6, 7].take k.val).map (fun r : Fin 8 => ⟨t.rowBytes r, .ok⟩) ++ [⟨t.rowBytes k, .error⟩])⟩,
        status := Status.record .txFail s.status, responses := s.responses ++ [0x10000000#32] }

/-- R161, R163, R164: with `W > 0` and a link that answers `ok` throughout, SCROLL sends `max(1, bound − start)` frames at the
offsets `start, start+1, …`, each composed from the message, and completes OK with the last one in `HB`. -/
def Obligations.ScrollSendsEveryFrame : Prop :=
  ∀ (s : State) (start : BitVec 24), s.engine = .idle → s.w ≠ 0#16 →
    let frames := max 1 (8 * s.w.toNat - 8 * s.params.n - start.toNat)
    (∀ j < 8 * frames, s.link.answerAt j = .ok) →
    ∃ t, exec (.scroll start) s = .next t ∧
      (∀ r c, c < s.params.n → t.hbByte r c = s.splice (start.toNat + frames - 1) r c) ∧
      t = { s with
        hb := t.hb,
        link := ⟨s.link.script.drop (8 * frames), s.link.log ++
          (List.range frames).flatMap (fun m => [0, 1, 2, 3, 4, 5, 6, 7].map (fun r : Fin 8 =>
            ⟨(List.range s.params.n).map (s.splice (start.toNat + m) r) ++ [shl8 1#8 (7 - r.val)], .ok⟩))⟩,
        status := Status.record .ok s.status, responses := s.responses ++ [0x00000000#32] }

/-- R161: the sweep counter never wraps: `last < 2^24`, and the last frame is at `max(start, bound − 1)`. -/
def Obligations.SweepOffsetsFitTheField : Prop :=
  ∀ (p : Params) (w : BitVec 16) (start : BitVec 24), p.wf →
    let bound : Int := 8 * (w.toNat : Int) - 8 * (p.n : Int)
    let last : Int := max (start.toNat : Int) (bound - 1)
    last < 2 ^ 24 ∧ (sweepFrames p w start.toNat : Int) = last - start.toNat + 1 ∧
      (sweepFrames p w start.toNat : Int) = max 1 (bound - start.toNat)

/-- R166: a sweep whose frame `m` fails at row `k` ends there with TX_FAIL: the earlier frames were sent whole, that frame up to
row `k`, no later frame, and `HB` holds that frame whole. -/
def Obligations.ScrollStopsAtFirstError : Prop :=
  ∀ (s : State) (start : BitVec 24) (m : Nat) (k : Fin 8), s.engine = .idle → s.w ≠ 0#16 →
    m < max 1 (8 * s.w.toNat - 8 * s.params.n - start.toNat) →
    (∀ j < 8 * m + k.val, s.link.answerAt j = .ok) → s.link.answerAt (8 * m + k.val) = .error →
    ∃ t, exec (.scroll start) s = .next t ∧
      (∀ r c, c < s.params.n → t.hbByte r c = s.splice (start.toNat + m) r c) ∧
      t = { s with
        hb := t.hb,
        link := ⟨s.link.script.drop (8 * m + k.val + 1), s.link.log ++
          ((List.range m).flatMap (fun m' => [0, 1, 2, 3, 4, 5, 6, 7].map (fun r : Fin 8 =>
              ⟨(List.range s.params.n).map (s.splice (start.toNat + m') r) ++ [shl8 1#8 (7 - r.val)], .ok⟩)) ++
            (([0, 1, 2, 3, 4, 5, 6, 7].take k.val).map (fun r : Fin 8 => ⟨t.rowBytes r, .ok⟩) ++
              [⟨t.rowBytes k, .error⟩]))⟩,
        status := Status.record .txFail s.status, responses := s.responses ++ [0x10000000#32] }

/-- R156: a sweep whose frame `m` stalls at row `k` stays executing, its transient counters at that offset and that row; of the row
writes the statement gives the number. That the row counter is the outstanding row, where R33 speaks of the next row write, and
that a sweep alone holds an offset, is the model's reading (log entry 12). -/
def Obligations.ScrollStallKeepsCounters : Prop :=
  ∀ (s : State) (start : BitVec 24) (m : Nat) (k : Fin 8), s.engine = .idle → s.w ≠ 0#16 →
    m < max 1 (8 * s.w.toNat - 8 * s.params.n - start.toNat) →
    (∀ j < 8 * m + k.val, s.link.answerAt j = .ok) → s.link.answerAt (8 * m + k.val) = .never →
    ∃ t, exec (.scroll start) s = .next t ∧ t.engine = .executing (some (start.toNat + m)) k ∧
      t.link.log.length = s.link.log.length + (8 * m + k.val + 1) ∧
      t.responses = s.responses ∧ t.status = s.status ∧ t.mb = s.mb ∧ t.w = s.w

/-- R167: for `W > 0`, whatever the link answers, SCROLL leaves the same link traffic and the same `HB`, `MB` and `W` as the
commands `DISPLAY start; DISPLAY start+1; …` cut after the first that does not complete OK. That the two runs get the same answers,
also past the script, is the model's choice (log entry 4). -/
def Obligations.ScrollEqualsDisplaySequence : Prop :=
  ∀ (s : State) (start : BitVec 24), s.params.wf → s.engine = .idle → s.w ≠ 0#16 →
    ∃ t u, exec (.scroll start) s = .next t ∧
      displaysUntilFailure (max 1 (8 * s.w.toNat - 8 * s.params.n - start.toNat)) start.toNat s = some u ∧
      t.link = u.link ∧ t.hb = u.hb ∧ t.mb = u.mb ∧ t.w = u.w ∧ t.busy = u.busy

/-! ## System commands (45_system.md) -/

/-- R175: NOP completes OK and does nothing else. -/
def Obligations.NopOnlyCompletes : Prop :=
  ∀ s : State, s.engine = .idle →
    exec .nop s = .next { s with
      status := Status.record .ok s.status, responses := s.responses ++ [0x00000000#32] } ∧
    Status.last (Status.record .ok s.status) = 0#4 ∧
    Status.txf (Status.record .ok s.status) = Status.txf s.status ∧
    Status.cmdf (Status.record .ok s.status) = Status.cmdf s.status

/-- R176: after CLRF the whole of STATUS is 0x00 (its reserved bits being zero, R30), and nothing else changed. -/
def Obligations.ClrfZeroesStatus : Prop :=
  ∀ s : State, s.engine = .idle → s.status.extractLsb' 2 2 = 0#2 →
    exec .clrf s = .next { s with status := 0x00#8, responses := s.responses ++ [0x00000000#32] }

/-- R177: RDST returns `{OK, 0000, W, STATUS}`, its reserved bits read as 0 (R30), and changes no state. -/
def Obligations.RdstReturnsStatusAndWidth : Prop :=
  ∀ s : State, s.engine = .idle →
    ∃ rw : Word, exec .rdst s = .next { s with responses := s.responses ++ [rw] } ∧
      rw.extractLsb' 24 8 = 0#8 ∧ rw.extractLsb' 8 16 = s.w ∧ rw.extractLsb' 2 2 = 0#2 ∧
      (s.status.extractLsb' 2 2 = 0#2 → rw.extractLsb' 0 8 = s.status)

/-- R179: RDCFG returns `{OK, 0000, WMAX, N}` and changes no state. -/
def Obligations.RdcfgReturnsParameters : Prop :=
  ∀ s : State, s.params.wf → s.engine = .idle →
    ∃ rw : Word, exec .rdcfg s = .next { s with responses := s.responses ++ [rw] } ∧
      rw.toNat = s.params.wmax * 256 + s.params.n

/-- R178: the system commands never change `HB`, `MB`, `W` or the link. -/
def Obligations.SystemCommandsTouchNoBuffer : Prop :=
  ∀ (i : Instr) (s t : State), (i = .nop ∨ i = .clrf ∨ i = .rdst ∨ i = .rdcfg) → exec i s = .next t →
    t = { s with status := t.status, responses := t.responses }

/-! ## Completion codes and STATUS (60_exceptions.md) -/

/-- R30, R186, R190: what a completion with a code does to each field of STATUS. -/
def Obligations.StatusRecordsTheCode : Prop :=
  ∀ (code : Code) (st : BitVec 8),
    Status.last (Status.record code st) = (match code with
      | .ok => 0#4
      | .txFail => 1#4
      | .illegal => 2#4
      | .range => 3#4) ∧
    Status.txf (Status.record code st) = (Status.txf st || code = .txFail) ∧
    Status.cmdf (Status.record code st) = (Status.cmdf st || code = .illegal || code = .range) ∧
    (Status.record code st).extractLsb' 2 2 = st.extractLsb' 2 2

/-- R80, R92, R190: a command that completes returns exactly one response word and updates STATUS by its code, unless it is RDST
or RDCFG; a command that blocks returns none and leaves STATUS. Only CLRF clears the sticky flags. -/
def Obligations.OneResponsePerCompletion : Prop :=
  ∀ (i : Instr) (s t : State), exec i s = .next t →
    (t.busy = true ∧ t.responses = s.responses ∧ t.status = s.status) ∨
    (t.busy = false ∧ ∃ code aux data,
      t.responses = s.responses ++ [responseWord code aux data] ∧ (code ≠ .ok → aux = 0#16 ∧ data = 0#8) ∧
      ((i = .rdst ∨ i = .rdcfg) → t.status = s.status) ∧
      (i ≠ .rdst → i ≠ .rdcfg →
        Status.last t.status = code.bits ∧
        Status.txf t.status = ((Status.txf s.status && i ≠ .clrf) || code = .txFail) ∧
        Status.cmdf t.status = ((Status.cmdf s.status && i ≠ .clrf) || code = .illegal || code = .range)))

/-- R189: exactly NEWMSG beyond the capacity, LDMSG and RDMB at or beyond `W`, and RDHB beyond `N` complete with RANGE, and then
nothing is read or written. -/
def Obligations.RangeExactlyWhereNoPlaceExists : Prop :=
  ∀ (i : Instr) (s : State), s.engine = .idle →
    let noPlace :=
      (∃ w, i = .newmsg w ∧ w.toNat > s.params.wmax) ∨
      (∃ row col data, i = .ldmsg row col data ∧ col.toNat ≥ s.w.toNat) ∨
      (∃ row col, i = .rdmb row col ∧ col.toNat ≥ s.w.toNat) ∨
      (∃ row col, i = .rdhb row col ∧ col.toNat > s.params.n)
    ∃ t, exec i s = .next t ∧
      ((∃ aux data, t.responses = s.responses ++ [responseWord .range aux data]) ↔ noPlace) ∧
      (noPlace → t = { s with
        status := Status.record .range s.status, responses := s.responses ++ [0x30000000#32] })

/-- R34: no command's effect on the buffers, the width or the link depends on a flag. -/
def Obligations.FlagsAffectNoEffect : Prop :=
  ∀ (i : Instr) (s t u : State) (st : BitVec 8),
    exec i s = .next t → exec i { s with status := st } = .next u →
    u = { t with status := u.status, responses := u.responses } ∧ (i ≠ .rdst → u.responses = t.responses)

/-! ## State: who writes what, invariants, reset (10_state.md, 70_reset_and_hazards.md) -/

/-- R25: the commands that write data bytes of `HB` are CLEAR, PLOT, COMPOSE, DISPLAY and SCROLL; every other leaves `HB`. -/
def Obligations.OnlyFiveCommandsWriteHb : Prop :=
  ∀ (i : Instr) (s t : State), exec i s = .next t →
    (∀ v, i ≠ .clear v) → (∀ c r o, i ≠ .plot c r o) → (∀ o, i ≠ .compose o) → (∀ o, i ≠ .display o) →
    (∀ o, i ≠ .scroll o) →
    t.hb = s.hb ∧ ∀ r c, t.hbByte r c = s.hbByte r c

/-- R28, R52: `W` is written only by NEWMSG and `MB` only by NEWMSG and LDMSG. -/
def Obligations.OnlyMessageCommandsWriteMessage : Prop :=
  ∀ (i : Instr) (s t : State), exec i s = .next t →
    ((∀ w, i ≠ .newmsg w) → t.w = s.w) ∧
    ((∀ w, i ≠ .newmsg w) → (∀ r c d, i ≠ .ldmsg r c d) → t.mb = s.mb)

/-- R38: a data byte that nothing has written since reset keeps its value until a command writes it. -/
def Obligations.UnwrittenBytesAreStable : Prop :=
  ∀ (i : Instr) (s t : State) (r : Fin 8) (c : Nat), c < s.params.n → exec i s = .next t →
    t.hb.read? (hbAddr s.params r c) = none →
    s.hb.read? (hbAddr s.params r c) = none ∧ t.hbByte r c = s.hbByte r c

/-- R38: after a CLEAR or a COMPOSE, or a DISPLAY or SCROLL of a message that is not empty, every data byte has been written. -/
def Obligations.NothingUnspecifiedRemains : Prop :=
  ∀ (i : Instr) (s t : State), exec i s = .next t →
    ((∃ v, i = .clear v) ∨ (∃ o, i = .compose o) ∨ (s.w ≠ 0#16 ∧ ((∃ o, i = .display o) ∨ (∃ o, i = .scroll o)))) →
    ∀ r c, c < s.params.n → (t.hb.read? (hbAddr s.params r c)).isSome

/-- R23: the row-select pattern. -/
def Obligations.RowSelectPattern : Prop :=
  ([0, 1, 2, 3, 4, 5, 6, 7] : List (Fin 8)).map rowSelect =
      [0x80#8, 0x40#8, 0x20#8, 0x10#8, 0x08#8, 0x04#8, 0x02#8, 0x01#8] ∧
    ∀ (s : State) (r : Fin 8), s.hbByte r s.params.n = rowSelect r

/-- R5, R24, R28, R30, R33, R38, R53, R92: every step keeps the invariant of the block. What a blocked
engine's counters hold is the model's reading of R33 (log entry 12). -/
def Obligations.EveryStepKeepsInvariant : Prop :=
  ∀ s t : State, s.Inv → step s = .next t → t.Inv ∧ t.params = s.params

/-- R7, R8, R37: a newly constructed block satisfies the invariant, whatever its parameters; so does the reset state,
whose geometry is the model's choice (log entry 1). -/
def Obligations.ConstructedBlockSatisfiesInvariant : Prop :=
  (∀ p : Params, p.wf → (State.construct p).Inv) ∧ State.reset.Inv

/-- R37, R216: after construction the row-select column is computed, `W = 0`, STATUS is 0x00, no command executes, and no row
write was issued; an unwritten byte is a free value (log entry 3). -/
def Obligations.ResetValues : Prop :=
  ∀ p : Params,
    let s := State.construct p
    s.params = p ∧ (∀ r : Fin 8, s.hbByte r p.n = shl8 1#8 (7 - r.val)) ∧ s.w = 0#16 ∧ s.status = 0x00#8 ∧
      s.engine = .idle ∧ s.busy = false ∧ s.link.log = [] ∧ s.responses = [] ∧ s.hb = [] ∧ s.mb = []

/-- R216, R217: reset ends any command, blocked or not, and leaves the reset state: `W`, STATUS and the engine as after
construction, nothing of the buffers written, no row write issued, no response. What is
kept across reset is the model's choice (log entry 8). -/
def Obligations.ResetEndsAnyCommand : Prop :=
  ∀ (s : State) (rest : List HostInput), s.host = .reset :: rest →
    step s = .next { State.construct s.params with
      epoch := s.epoch + 1, link := s.link, responses := s.responses, host := rest }

/-- R217: a command cut by reset returns no response, the state is that of reset, and the row writes it had issued are the first of
those it would have issued. Where reset can cut, and what is kept, are the model's choices (log entry 8). -/
def Obligations.CutCommandLeavesResetState : Prop :=
  ∀ (s : State) (cw : Word) (writes : Nat) (rest : List HostInput),
    s.engine = .idle → s.host = .commandThenReset cw writes :: rest →
    ∃ t u, runWord cw { s with host := rest } = .next t ∧ step s = .next u ∧
      u = { State.construct s.params with
        epoch := s.epoch + 1, link := u.link, responses := s.responses, host := rest } ∧
      ∃ sent, u.link.log = s.link.log ++ sent ∧ s.link.log ++ sent <+: t.link.log ∧ sent.length ≤ writes ∧
        (t.link.log.length ≤ s.link.log.length + writes → u.link.log = t.link.log)
end

