-- ==== Sys2Proof/Laws/Decode.lean ====
section
/-! SUPPORT. The fields of an encoded word, format by format (30_encoding.md R82). -/

namespace Sys2Proof

@[simp] theorem opField_formatZ (op : BitVec 4) : opField (formatZ op) = op := by
  ext i hi
  simp only [opField, formatZ, BitVec.getElem_extractLsb', BitVec.getLsbD_append]
  interval_cases i <;> simp

@[simp] theorem opField_formatV (op : BitVec 4) (value : BitVec 8) : opField (formatV op value) = op := by
  ext i hi
  simp only [opField, formatV, BitVec.getElem_extractLsb', BitVec.getLsbD_append]
  interval_cases i <;> simp

@[simp] theorem lowByte_formatV (op : BitVec 4) (value : BitVec 8) : lowByte (formatV op value) = value := by
  ext i hi
  simp only [lowByte, formatV, BitVec.getElem_extractLsb', BitVec.getLsbD_append]
  interval_cases i <;> simp

@[simp] theorem opField_formatP (op : BitVec 4) (isOn : Bool) (col : BitVec 16) (row : BitVec 8) : opField (formatP op isOn col row) = op := by
  ext i hi
  simp only [opField, formatP, BitVec.getElem_extractLsb', BitVec.getLsbD_append]
  interval_cases i <;> simp

@[simp] theorem colField_formatP (op : BitVec 4) (isOn : Bool) (col : BitVec 16) (row : BitVec 8) : colField (formatP op isOn col row) = col := by
  ext i hi
  simp only [colField, formatP, BitVec.getElem_extractLsb', BitVec.getLsbD_append]
  interval_cases i <;> simp

@[simp] theorem lowByte_formatP (op : BitVec 4) (isOn : Bool) (col : BitVec 16) (row : BitVec 8) : lowByte (formatP op isOn col row) = row := by
  ext i hi
  simp only [lowByte, formatP, BitVec.getElem_extractLsb', BitVec.getLsbD_append]
  interval_cases i <;> simp

@[simp] theorem onField_formatP (op : BitVec 4) (isOn : Bool) (col : BitVec 16) (row : BitVec 8) : onField (formatP op isOn col row) = isOn := by
  simp only [onField, formatP, BitVec.getLsbD_append]
  simp

@[simp] theorem opField_formatM (op : BitVec 4) (row : BitVec 3) (col : BitVec 16) (data : BitVec 8) : opField (formatM op row col data) = op := by
  ext i hi
  simp only [opField, formatM, BitVec.getElem_extractLsb', BitVec.getLsbD_append]
  interval_cases i <;> simp

@[simp] theorem rowField_formatM (op : BitVec 4) (row : BitVec 3) (col : BitVec 16) (data : BitVec 8) : rowField (formatM op row col data) = row := by
  ext i hi
  simp only [rowField, formatM, BitVec.getElem_extractLsb', BitVec.getLsbD_append]
  interval_cases i <;> simp

@[simp] theorem colField_formatM (op : BitVec 4) (row : BitVec 3) (col : BitVec 16) (data : BitVec 8) : colField (formatM op row col data) = col := by
  ext i hi
  simp only [colField, formatM, BitVec.getElem_extractLsb', BitVec.getLsbD_append]
  interval_cases i <;> simp

@[simp] theorem lowByte_formatM (op : BitVec 4) (row : BitVec 3) (col : BitVec 16) (data : BitVec 8) : lowByte (formatM op row col data) = data := by
  ext i hi
  simp only [lowByte, formatM, BitVec.getElem_extractLsb', BitVec.getLsbD_append]
  interval_cases i <;> simp

@[simp] theorem opField_formatW (op : BitVec 4) (w : BitVec 16) : opField (formatW op w) = op := by
  ext i hi
  simp only [opField, formatW, BitVec.getElem_extractLsb', BitVec.getLsbD_append]
  interval_cases i <;> simp

@[simp] theorem colField_formatW (op : BitVec 4) (w : BitVec 16) : colField (formatW op w) = w := by
  ext i hi
  simp only [colField, formatW, BitVec.getElem_extractLsb', BitVec.getLsbD_append]
  interval_cases i <;> simp

@[simp] theorem opField_formatO (op : BitVec 4) (offset : BitVec 24) : opField (formatO op offset) = op := by
  ext i hi
  simp only [opField, formatO, BitVec.getElem_extractLsb', BitVec.getLsbD_append]
  interval_cases i <;> simp

@[simp] theorem offsetField_formatO (op : BitVec 4) (offset : BitVec 24) : offsetField (formatO op offset) = offset := by
  ext i hi
  simp only [offsetField, formatO, BitVec.getElem_extractLsb', BitVec.getLsbD_append]
  interval_cases i <;> simp

@[simp] theorem opField_formatR (op : BitVec 4) (row : BitVec 3) (col : BitVec 16) : opField (formatR op row col) = op := by
  ext i hi
  simp only [opField, formatR, BitVec.getElem_extractLsb', BitVec.getLsbD_append]
  interval_cases i <;> simp

@[simp] theorem rowField_formatR (op : BitVec 4) (row : BitVec 3) (col : BitVec 16) : rowField (formatR op row col) = row := by
  ext i hi
  simp only [rowField, formatR, BitVec.getElem_extractLsb', BitVec.getLsbD_append]
  interval_cases i <;> simp

@[simp] theorem colField_formatR (op : BitVec 4) (row : BitVec 3) (col : BitVec 16) : colField (formatR op row col) = col := by
  ext i hi
  simp only [colField, formatR, BitVec.getElem_extractLsb', BitVec.getLsbD_append]
  interval_cases i <;> simp

@[simp] theorem opField_reserved (op : BitVec 4) (low : BitVec 28) : opField (op ++ low) = op := by
  ext i hi
  simp only [opField, BitVec.getElem_extractLsb', BitVec.getLsbD_append]
  interval_cases i <;> simp

@[simp] theorem belowOp_reserved (op : BitVec 4) (low : BitVec 28) : belowOp (op ++ low) = low := by
  ext i hi
  simp only [belowOp, BitVec.getElem_extractLsb', BitVec.getLsbD_append]
  simp [hi]

/-- All that a row's check can let through (R86, R90). -/
theorem checked_ok_iff (cw mask pattern : Word) (i j : Instr) :
    checked cw mask pattern i = .ok j ↔ cw &&& mask = pattern ∧ i = j := by
  unfold checked
  split <;> simp_all

/-! ## A word is rebuilt from its fields -/

/-- The bits of an opcode above 28 zeros. -/
theorem getLsbD_opAtTop (op : BitVec 4) (i : Nat) :
    (op ++ 0#28).getLsbD i = if i < 28 then false else op.getLsbD (i - 28) := by
  rw [BitVec.getLsbD_append]
  split <;> simp

/-- A word that matches a row of this format is the format's word of its own fields (R82, R84). -/
theorem formatZ_fields (cw : Word) (op : BitVec 4) (h : cw &&& 0xFFFFFFFF#32 = op ++ 0#28) : formatZ op = cw := by
  apply BitVec.eq_of_getLsbD_eq
  intro i hi
  have hb := congrArg (·.getLsbD i) h
  simp only [formatZ, BitVec.getLsbD_and, BitVec.getLsbD_append] at hb ⊢
  interval_cases i <;> simp_all

/-- A word that matches a row of this format is the format's word of its own fields (R82, R84). -/
theorem formatV_fields (cw : Word) (op : BitVec 4) (h : cw &&& 0xFFFFFF00#32 = op ++ 0#28) : formatV op (lowByte cw) = cw := by
  apply BitVec.eq_of_getLsbD_eq
  intro i hi
  have hb := congrArg (·.getLsbD i) h
  simp only [formatV, lowByte, BitVec.getLsbD_and, BitVec.getLsbD_append, BitVec.getLsbD_extractLsb'] at hb ⊢
  interval_cases i <;> simp_all

/-- A word that matches a row of this format is the format's word of its own fields (R82, R84). -/
theorem formatP_fields (cw : Word) (op : BitVec 4) (h : cw &&& 0xFE000000#32 = op ++ 0#28) : formatP op (onField cw) (colField cw) (lowByte cw) = cw := by
  apply BitVec.eq_of_getLsbD_eq
  intro i hi
  have hb := congrArg (·.getLsbD i) h
  simp only [formatP, onField, colField, lowByte, BitVec.getLsbD_and, BitVec.getLsbD_append, BitVec.getLsbD_extractLsb'] at hb ⊢
  interval_cases i <;> simp_all

/-- A word that matches a row of this format is the format's word of its own fields (R82, R84). -/
theorem formatM_fields (cw : Word) (op : BitVec 4) (h : cw &&& 0xF8000000#32 = op ++ 0#28) : formatM op (rowField cw) (colField cw) (lowByte cw) = cw := by
  apply BitVec.eq_of_getLsbD_eq
  intro i hi
  have hb := congrArg (·.getLsbD i) h
  simp only [formatM, rowField, colField, lowByte, BitVec.getLsbD_and, BitVec.getLsbD_append, BitVec.getLsbD_extractLsb'] at hb ⊢
  interval_cases i <;> simp_all

/-- A word that matches a row of this format is the format's word of its own fields (R82, R84). -/
theorem formatW_fields (cw : Word) (op : BitVec 4) (h : cw &&& 0xFF0000FF#32 = op ++ 0#28) : formatW op (colField cw) = cw := by
  apply BitVec.eq_of_getLsbD_eq
  intro i hi
  have hb := congrArg (·.getLsbD i) h
  simp only [formatW, colField, BitVec.getLsbD_and, BitVec.getLsbD_append, BitVec.getLsbD_extractLsb'] at hb ⊢
  interval_cases i <;> simp_all

/-- A word that matches a row of this format is the format's word of its own fields (R82, R84). -/
theorem formatO_fields (cw : Word) (op : BitVec 4) (h : cw &&& 0xFF000000#32 = op ++ 0#28) : formatO op (offsetField cw) = cw := by
  apply BitVec.eq_of_getLsbD_eq
  intro i hi
  have hb := congrArg (·.getLsbD i) h
  simp only [formatO, offsetField, BitVec.getLsbD_and, BitVec.getLsbD_append, BitVec.getLsbD_extractLsb'] at hb ⊢
  interval_cases i <;> simp_all

/-- A word that matches a row of this format is the format's word of its own fields (R82, R84). -/
theorem formatR_fields (cw : Word) (op : BitVec 4) (h : cw &&& 0xF80000FF#32 = op ++ 0#28) : formatR op (rowField cw) (colField cw) = cw := by
  apply BitVec.eq_of_getLsbD_eq
  intro i hi
  have hb := congrArg (·.getLsbD i) h
  simp only [formatR, rowField, colField, BitVec.getLsbD_and, BitVec.getLsbD_append, BitVec.getLsbD_extractLsb'] at hb ⊢
  interval_cases i <;> simp_all

/-- A word is its opcode and the bits below it. -/
theorem op_append_belowOp (cw : Word) : opField cw ++ belowOp cw = cw := by
  apply BitVec.eq_of_getLsbD_eq
  intro i hi
  simp only [opField, belowOp, BitVec.getLsbD_append, BitVec.getLsbD_extractLsb']
  interval_cases i <;> simp

/-- The opcode of a word that matches a row is the row's. -/
theorem opField_of_mask (cw mask : Word) (op : BitVec 4) (hmask : mask &&& 0xF0000000#32 = 0xF0000000#32)
    (h : cw &&& mask = op ++ 0#28) : opField cw = op := by
  ext i hi
  have hb := congrArg (·.getLsbD (28 + i)) h
  have hm := congrArg (·.getLsbD (28 + i)) hmask
  simp only [opField, BitVec.getLsbD_and, BitVec.getElem_extractLsb', getLsbD_opAtTop] at hb hm ⊢
  interval_cases i <;> simp_all

end Sys2Proof
end

