-- ==== Sys2Proof/Laws/Memory.lean ====
section
/-! SUPPORT. The laws of the byte memories: read after write, the canonical form, and what a list of writes leaves. -/

namespace Sys2Proof.Machine

@[simp] theorem Memory.read?_nil (addr : Nat) : Memory.read? [] addr = none := rfl

/-- A write gives the byte written at its address and leaves every other address alone. -/
theorem Memory.read?_write (m : Memory) (addr x : Nat) (v : Byte) :
    (m.write addr v).read? x = if addr = x then some v else m.read? x := by
  induction m with
  | nil => simp [Memory.write, Memory.read?]
  | cons cell rest ih =>
    obtain ⟨a, b⟩ := cell
    simp only [Memory.write]
    split
    · simp [Memory.read?]
    · split
      · rename_i _ heq
        subst heq
        by_cases hx : addr = x <;> simp [Memory.read?, hx]
      · by_cases hx : a = x
        · have : addr ≠ x := by omega
          simp [Memory.read?, hx, this]
        · simp [Memory.read?, hx, ih]

@[simp] theorem Memory.read?_write_self (m : Memory) (addr : Nat) (v : Byte) : (m.write addr v).read? addr = some v := by
  simp [Memory.read?_write]

theorem Memory.read?_write_of_ne (m : Memory) {addr x : Nat} (v : Byte) (h : addr ≠ x) :
    (m.write addr v).read? x = m.read? x := by
  simp [Memory.read?_write, h]

/-- The addresses a memory lists after a write. -/
theorem Memory.mem_addrs_write (m : Memory) (addr x : Nat) (v : Byte) :
    x ∈ (m.write addr v).map Prod.fst ↔ x = addr ∨ x ∈ m.map Prod.fst := by
  induction m with
  | nil => simp [Memory.write]
  | cons cell rest ih =>
    obtain ⟨a, b⟩ := cell
    simp only [Memory.write]
    split
    · simp
    · split
      · rename_i _ heq
        subst heq
        simp
      · simp only [List.map_cons, List.mem_cons, ih]
        tauto

/-- A write keeps the canonical form. -/
theorem Memory.wf_write (m : Memory) (addr : Nat) (v : Byte) (h : m.wf) : (m.write addr v).wf := by
  induction m with
  | nil => simp [Memory.wf, Memory.write]
  | cons cell rest ih =>
    obtain ⟨a, b⟩ := cell
    have hr : Memory.wf rest := by simpa [Memory.wf] using (List.pairwise_cons.mp h).2
    have ha : ∀ x ∈ rest.map Prod.fst, a < x := (List.pairwise_cons.mp h).1
    simp only [Memory.write]
    split
    · rename_i hlt
      refine List.pairwise_cons.mpr ⟨?_, h⟩
      intro x hx
      rcases List.mem_cons.mp hx with rfl | hx
      · exact hlt
      · exact Nat.lt_trans hlt (ha x hx)
    · split
      · rename_i _ heq
        subst heq
        exact h
      · refine List.pairwise_cons.mpr ⟨?_, ih hr⟩
        intro x hx
        rcases (Memory.mem_addrs_write rest addr x v).mp hx with rfl | hx
        · show a < x
          omega
        · exact ha x hx

/-- A list of writes keeps the canonical form. -/
theorem Memory.wf_writeAll (cells : List Host.Cell) (m : Memory) (h : m.wf) : (Memory.writeAll cells m).wf := by
  induction cells generalizing m with
  | nil => exact h
  | cons cell rest ih => exact ih _ (Memory.wf_write m cell.1 cell.2 h)

/-- The addresses a memory lists after a list of writes. -/
theorem Memory.mem_addrs_writeAll (cells : List Host.Cell) (m : Memory) (x : Nat) :
    x ∈ (Memory.writeAll cells m).map Prod.fst ↔ x ∈ cells.map Prod.fst ∨ x ∈ m.map Prod.fst := by
  induction cells generalizing m with
  | nil => simp [Memory.writeAll]
  | cons cell rest ih =>
    rw [show Memory.writeAll (cell :: rest) m = Memory.writeAll rest (m.write cell.1 cell.2) from rfl, ih,
      Memory.mem_addrs_write]
    simp only [List.map_cons, List.mem_cons]
    tauto

/-- A list of writes leaves an address alone that none of its cells names. -/
theorem Memory.read?_writeAll_of_notMem (cells : List Host.Cell) (m : Memory) (x : Nat)
    (h : ∀ cell ∈ cells, cell.1 ≠ x) : (Memory.writeAll cells m).read? x = m.read? x := by
  induction cells generalizing m with
  | nil => rfl
  | cons cell rest ih =>
    rw [show Memory.writeAll (cell :: rest) m = Memory.writeAll rest (m.write cell.1 cell.2) from rfl,
      ih _ fun c hc => h c (List.mem_cons_of_mem _ hc),
      Memory.read?_write_of_ne _ _ (h cell List.mem_cons_self)]

/-- A list of writes leaves at an address the byte that all its cells of that address name. -/
theorem Memory.read?_writeAll_of_mem (cells : List Host.Cell) (m : Memory) (x : Nat) (v : Byte)
    (hx : ∃ cell ∈ cells, cell.1 = x) (hv : ∀ cell ∈ cells, cell.1 = x → cell.2 = v) :
    (Memory.writeAll cells m).read? x = some v := by
  induction cells generalizing m with
  | nil => simp at hx
  | cons cell rest ih =>
    rw [show Memory.writeAll (cell :: rest) m = Memory.writeAll rest (m.write cell.1 cell.2) from rfl]
    by_cases hrest : ∃ c ∈ rest, c.1 = x
    · exact ih _ hrest fun c hc => hv c (List.mem_cons_of_mem _ hc)
    · rw [Memory.read?_writeAll_of_notMem _ _ _ fun c hc heq => hrest ⟨c, hc, heq⟩]
      obtain ⟨c, hc, heq⟩ := hx
      rcases List.mem_cons.mp hc with rfl | hc
      · rw [← heq, Memory.read?_write_self, hv c List.mem_cons_self heq]
      · exact absurd ⟨c, hc, heq⟩ hrest

/-- An address is listed exactly when reading it gives a written byte. -/
theorem Memory.read?_isSome_iff (m : Memory) (x : Nat) : (m.read? x).isSome ↔ x ∈ m.map Prod.fst := by
  induction m with
  | nil => simp
  | cons cell rest ih =>
    obtain ⟨a, b⟩ := cell
    by_cases hx : a = x
    · simp [Memory.read?, hx]
    · have : x ≠ a := fun h => hx h.symm
      simp only [Memory.read?, if_neg hx, ih, List.map_cons, List.mem_cons]
      tauto

/-! ## Rows and the grid -/

@[simp] theorem mem_allRows (r : Fin 8) : r ∈ allRows := by
  revert r
  decide

theorem mem_gridCells (addr : Fin 8 → Nat → Nat) (width : Nat) (f : Fin 8 → Nat → Byte) (cell : Host.Cell) :
    cell ∈ gridCells addr width f ↔ ∃ r c, c < width ∧ cell = (addr r c, f r c) := by
  simp only [gridCells, List.mem_flatMap, mem_allRows, List.mem_map, List.mem_range, true_and]
  constructor
  · rintro ⟨r, c, hc, rfl⟩
    exact ⟨r, c, hc, rfl⟩
  · rintro ⟨r, c, hc, rfl⟩
    exact ⟨r, c, hc, rfl⟩

/-- The addresses of R62 name different cells differently. -/
theorem rowMajor_inj {stride : Nat} {r r' : Fin 8} {c c' : Nat} (hc : c < stride) (hc' : c' < stride)
    (h : r.val * stride + c = r'.val * stride + c') : r = r' ∧ c = c' := by
  have hstride : 0 < stride := by omega
  have hr : r.val = r'.val := by
    have h1 : (r.val * stride + c) / stride = r.val := by
      rw [Nat.mul_comm, Nat.mul_add_div hstride, Nat.div_eq_of_lt hc, Nat.add_zero]
    have h2 : (r'.val * stride + c') / stride = r'.val := by
      rw [Nat.mul_comm, Nat.mul_add_div hstride, Nat.div_eq_of_lt hc', Nat.add_zero]
    rw [← h1, h, h2]
  refine ⟨Fin.ext hr, ?_⟩
  rw [hr] at h
  omega

theorem hbAddr_inj {p : Params} {r r' : Fin 8} {c c' : Nat} (hc : c ≤ p.n) (hc' : c' ≤ p.n)
    (h : hbAddr p r c = hbAddr p r' c') : r = r' ∧ c = c' :=
  rowMajor_inj (stride := p.n + 1) (by omega) (by omega) h

theorem mbAddr_inj {p : Params} {r r' : Fin 8} {j j' : Nat} (hj : j < p.wmax) (hj' : j' < p.wmax)
    (h : mbAddr p r j = mbAddr p r' j') : r = r' ∧ j = j' :=
  rowMajor_inj hj hj' h

end Sys2Proof.Machine
end

