-- ==== Sys2Proof/Laws/State.lean ====
section
/-! SUPPORT. One lemma per field per update of one field (Machine/Ops.lean), so that no proof unfolds a record update. -/

namespace Sys2Proof.Machine

@[simp] theorem State.withHb_params (s : State) (m : Memory) : (s.withHb m).params = s.params := rfl
@[simp] theorem State.withHb_epoch (s : State) (m : Memory) : (s.withHb m).epoch = s.epoch := rfl
@[simp] theorem State.withHb_hb (s : State) (m : Memory) : (s.withHb m).hb = m := rfl
@[simp] theorem State.withHb_mb (s : State) (m : Memory) : (s.withHb m).mb = s.mb := rfl
@[simp] theorem State.withHb_w (s : State) (m : Memory) : (s.withHb m).w = s.w := rfl
@[simp] theorem State.withHb_status (s : State) (m : Memory) : (s.withHb m).status = s.status := rfl
@[simp] theorem State.withHb_engine (s : State) (m : Memory) : (s.withHb m).engine = s.engine := rfl
@[simp] theorem State.withHb_link (s : State) (m : Memory) : (s.withHb m).link = s.link := rfl
@[simp] theorem State.withHb_responses (s : State) (m : Memory) : (s.withHb m).responses = s.responses := rfl
@[simp] theorem State.withHb_host (s : State) (m : Memory) : (s.withHb m).host = s.host := rfl

@[simp] theorem State.withMb_params (s : State) (m : Memory) : (s.withMb m).params = s.params := rfl
@[simp] theorem State.withMb_epoch (s : State) (m : Memory) : (s.withMb m).epoch = s.epoch := rfl
@[simp] theorem State.withMb_hb (s : State) (m : Memory) : (s.withMb m).hb = s.hb := rfl
@[simp] theorem State.withMb_mb (s : State) (m : Memory) : (s.withMb m).mb = m := rfl
@[simp] theorem State.withMb_w (s : State) (m : Memory) : (s.withMb m).w = s.w := rfl
@[simp] theorem State.withMb_status (s : State) (m : Memory) : (s.withMb m).status = s.status := rfl
@[simp] theorem State.withMb_engine (s : State) (m : Memory) : (s.withMb m).engine = s.engine := rfl
@[simp] theorem State.withMb_link (s : State) (m : Memory) : (s.withMb m).link = s.link := rfl
@[simp] theorem State.withMb_responses (s : State) (m : Memory) : (s.withMb m).responses = s.responses := rfl
@[simp] theorem State.withMb_host (s : State) (m : Memory) : (s.withMb m).host = s.host := rfl

@[simp] theorem State.withW_params (s : State) (w : BitVec 16) : (s.withW w).params = s.params := rfl
@[simp] theorem State.withW_epoch (s : State) (w : BitVec 16) : (s.withW w).epoch = s.epoch := rfl
@[simp] theorem State.withW_hb (s : State) (w : BitVec 16) : (s.withW w).hb = s.hb := rfl
@[simp] theorem State.withW_mb (s : State) (w : BitVec 16) : (s.withW w).mb = s.mb := rfl
@[simp] theorem State.withW_w (s : State) (w : BitVec 16) : (s.withW w).w = w := rfl
@[simp] theorem State.withW_status (s : State) (w : BitVec 16) : (s.withW w).status = s.status := rfl
@[simp] theorem State.withW_engine (s : State) (w : BitVec 16) : (s.withW w).engine = s.engine := rfl
@[simp] theorem State.withW_link (s : State) (w : BitVec 16) : (s.withW w).link = s.link := rfl
@[simp] theorem State.withW_responses (s : State) (w : BitVec 16) : (s.withW w).responses = s.responses := rfl
@[simp] theorem State.withW_host (s : State) (w : BitVec 16) : (s.withW w).host = s.host := rfl

@[simp] theorem State.withStatus_params (s : State) (st : BitVec 8) : (s.withStatus st).params = s.params := rfl
@[simp] theorem State.withStatus_epoch (s : State) (st : BitVec 8) : (s.withStatus st).epoch = s.epoch := rfl
@[simp] theorem State.withStatus_hb (s : State) (st : BitVec 8) : (s.withStatus st).hb = s.hb := rfl
@[simp] theorem State.withStatus_mb (s : State) (st : BitVec 8) : (s.withStatus st).mb = s.mb := rfl
@[simp] theorem State.withStatus_w (s : State) (st : BitVec 8) : (s.withStatus st).w = s.w := rfl
@[simp] theorem State.withStatus_status (s : State) (st : BitVec 8) : (s.withStatus st).status = st := rfl
@[simp] theorem State.withStatus_engine (s : State) (st : BitVec 8) : (s.withStatus st).engine = s.engine := rfl
@[simp] theorem State.withStatus_link (s : State) (st : BitVec 8) : (s.withStatus st).link = s.link := rfl
@[simp] theorem State.withStatus_responses (s : State) (st : BitVec 8) : (s.withStatus st).responses = s.responses := rfl
@[simp] theorem State.withStatus_host (s : State) (st : BitVec 8) : (s.withStatus st).host = s.host := rfl

@[simp] theorem State.withEngine_params (s : State) (e : Engine) : (s.withEngine e).params = s.params := rfl
@[simp] theorem State.withEngine_epoch (s : State) (e : Engine) : (s.withEngine e).epoch = s.epoch := rfl
@[simp] theorem State.withEngine_hb (s : State) (e : Engine) : (s.withEngine e).hb = s.hb := rfl
@[simp] theorem State.withEngine_mb (s : State) (e : Engine) : (s.withEngine e).mb = s.mb := rfl
@[simp] theorem State.withEngine_w (s : State) (e : Engine) : (s.withEngine e).w = s.w := rfl
@[simp] theorem State.withEngine_status (s : State) (e : Engine) : (s.withEngine e).status = s.status := rfl
@[simp] theorem State.withEngine_engine (s : State) (e : Engine) : (s.withEngine e).engine = e := rfl
@[simp] theorem State.withEngine_link (s : State) (e : Engine) : (s.withEngine e).link = s.link := rfl
@[simp] theorem State.withEngine_responses (s : State) (e : Engine) : (s.withEngine e).responses = s.responses := rfl
@[simp] theorem State.withEngine_host (s : State) (e : Engine) : (s.withEngine e).host = s.host := rfl

@[simp] theorem State.withLink_params (s : State) (l : Link) : (s.withLink l).params = s.params := rfl
@[simp] theorem State.withLink_epoch (s : State) (l : Link) : (s.withLink l).epoch = s.epoch := rfl
@[simp] theorem State.withLink_hb (s : State) (l : Link) : (s.withLink l).hb = s.hb := rfl
@[simp] theorem State.withLink_mb (s : State) (l : Link) : (s.withLink l).mb = s.mb := rfl
@[simp] theorem State.withLink_w (s : State) (l : Link) : (s.withLink l).w = s.w := rfl
@[simp] theorem State.withLink_status (s : State) (l : Link) : (s.withLink l).status = s.status := rfl
@[simp] theorem State.withLink_engine (s : State) (l : Link) : (s.withLink l).engine = s.engine := rfl
@[simp] theorem State.withLink_link (s : State) (l : Link) : (s.withLink l).link = l := rfl
@[simp] theorem State.withLink_responses (s : State) (l : Link) : (s.withLink l).responses = s.responses := rfl
@[simp] theorem State.withLink_host (s : State) (l : Link) : (s.withLink l).host = s.host := rfl

@[simp] theorem State.withHost_params (s : State) (h : List HostInput) : (s.withHost h).params = s.params := rfl
@[simp] theorem State.withHost_epoch (s : State) (h : List HostInput) : (s.withHost h).epoch = s.epoch := rfl
@[simp] theorem State.withHost_hb (s : State) (h : List HostInput) : (s.withHost h).hb = s.hb := rfl
@[simp] theorem State.withHost_mb (s : State) (h : List HostInput) : (s.withHost h).mb = s.mb := rfl
@[simp] theorem State.withHost_w (s : State) (h : List HostInput) : (s.withHost h).w = s.w := rfl
@[simp] theorem State.withHost_status (s : State) (h : List HostInput) : (s.withHost h).status = s.status := rfl
@[simp] theorem State.withHost_engine (s : State) (h : List HostInput) : (s.withHost h).engine = s.engine := rfl
@[simp] theorem State.withHost_link (s : State) (h : List HostInput) : (s.withHost h).link = s.link := rfl
@[simp] theorem State.withHost_responses (s : State) (h : List HostInput) : (s.withHost h).responses = s.responses := rfl
@[simp] theorem State.withHost_host (s : State) (h : List HostInput) : (s.withHost h).host = h := rfl

@[simp] theorem State.respond_params (s : State) (rw : Word) : (s.respond rw).params = s.params := rfl
@[simp] theorem State.respond_epoch (s : State) (rw : Word) : (s.respond rw).epoch = s.epoch := rfl
@[simp] theorem State.respond_hb (s : State) (rw : Word) : (s.respond rw).hb = s.hb := rfl
@[simp] theorem State.respond_mb (s : State) (rw : Word) : (s.respond rw).mb = s.mb := rfl
@[simp] theorem State.respond_w (s : State) (rw : Word) : (s.respond rw).w = s.w := rfl
@[simp] theorem State.respond_status (s : State) (rw : Word) : (s.respond rw).status = s.status := rfl
@[simp] theorem State.respond_engine (s : State) (rw : Word) : (s.respond rw).engine = s.engine := rfl
@[simp] theorem State.respond_link (s : State) (rw : Word) : (s.respond rw).link = s.link := rfl
@[simp] theorem State.respond_responses (s : State) (rw : Word) : (s.respond rw).responses = s.responses ++ [rw] := rfl
@[simp] theorem State.respond_host (s : State) (rw : Word) : (s.respond rw).host = s.host := rfl

@[simp] theorem State.construct_params (p : Params) : (State.construct p).params = p := rfl
@[simp] theorem State.construct_epoch (p : Params) : (State.construct p).epoch = 0 := rfl
@[simp] theorem State.construct_hb (p : Params) : (State.construct p).hb = [] := rfl
@[simp] theorem State.construct_mb (p : Params) : (State.construct p).mb = [] := rfl
@[simp] theorem State.construct_w (p : Params) : (State.construct p).w = 0#16 := rfl
@[simp] theorem State.construct_status (p : Params) : (State.construct p).status = 0#8 := rfl
@[simp] theorem State.construct_engine (p : Params) : (State.construct p).engine = .idle := rfl
@[simp] theorem State.construct_link (p : Params) : (State.construct p).link = { script := [], log := [] } := rfl
@[simp] theorem State.construct_responses (p : Params) : (State.construct p).responses = [] := rfl
@[simp] theorem State.construct_host (p : Params) : (State.construct p).host = [] := rfl

@[simp] theorem State.afterReset_params (s : State) : s.afterReset.params = s.params := rfl
@[simp] theorem State.afterReset_epoch (s : State) : s.afterReset.epoch = s.epoch + 1 := rfl
@[simp] theorem State.afterReset_hb (s : State) : s.afterReset.hb = [] := rfl
@[simp] theorem State.afterReset_mb (s : State) : s.afterReset.mb = [] := rfl
@[simp] theorem State.afterReset_w (s : State) : s.afterReset.w = 0#16 := rfl
@[simp] theorem State.afterReset_status (s : State) : s.afterReset.status = 0#8 := rfl
@[simp] theorem State.afterReset_engine (s : State) : s.afterReset.engine = .idle := rfl
@[simp] theorem State.afterReset_link (s : State) : s.afterReset.link = s.link := rfl
@[simp] theorem State.afterReset_responses (s : State) : s.afterReset.responses = s.responses := rfl
@[simp] theorem State.afterReset_host (s : State) : s.afterReset.host = s.host := rfl

@[simp] theorem whenIdle_idle (s t : State) (h : s.engine = .idle) : whenIdle s t = .next t := by
  simp [whenIdle, h]

@[simp] theorem whenIdle_executing (s t : State) (off : Option Nat) (row : Fin 8) (h : s.engine = .executing off row) :
    whenIdle s t = .refused .commandWhileBusy := by
  simp [whenIdle, h]

/-- All that the channel's check can answer: the command's state where the engine is idle, else the refusal. -/
theorem whenIdle_next_iff (s t u : State) : whenIdle s t = .next u ↔ s.engine = .idle ∧ t = u := by
  unfold whenIdle
  cases s.engine <;> simp

@[simp] theorem State.busy_eq_false (s : State) : s.busy = false ↔ s.engine = .idle := by
  unfold State.busy
  cases s.engine <;> simp

end Sys2Proof.Machine
end

