-- ==== Sys2Proof/Laws/Ops.lean ====
section
/-! SUPPORT. One lemma per shared operation (Machine/Ops.lean) that says what it can do: completion, the buffer updates, the
compositing step, the link, the transmitter and the sweep. -/

namespace Sys2Proof.Machine

/-! ## Completion -/

@[simp] theorem State.completeOk_eq (s : State) :
    s.completeOk = (s.withStatus (Status.record .ok s.status)).respond (responseWord .ok 0#16 0#8) := rfl

@[simp] theorem State.complete_ok_eq (s : State) (aux : BitVec 16) (data : BitVec 8) :
    s.complete .ok aux data = (s.withStatus (Status.record .ok s.status)).respond (responseWord .ok aux data) := rfl

@[simp] theorem State.raiseError_eq (s : State) (code : Code) :
    s.raiseError code = (s.withStatus (Status.record code s.status)).respond (responseWord code 0#16 0#8) := by
  cases code <;> rfl

@[simp] theorem State.completeRead_eq (s : State) (aux : BitVec 16) (data : BitVec 8) :
    s.completeRead aux data = s.respond (responseWord .ok aux data) := rfl

/-! ## Reading bytes across an update -/

/-- What a byte of `HB` reads as rests on four fields alone. -/
theorem State.hbByte_congr {s t : State} (hp : t.params = s.params) (he : t.epoch = s.epoch) (hh : t.hb = s.hb)
    (r : Fin 8) (c : Nat) : t.hbByte r c = s.hbByte r c := by
  simp [State.hbByte, hp, he, hh]

/-- What a byte of `MB` reads as rests on three fields alone. -/
theorem State.mbByte_congr {s t : State} (hp : t.params = s.params) (he : t.epoch = s.epoch) (hm : t.mb = s.mb)
    (r : Fin 8) (j : Nat) : t.mbByte r j = s.mbByte r j := by
  simp [State.mbByte, hp, he, hm]

theorem State.rowBytes_congr {s t : State} (hp : t.params = s.params) (he : t.epoch = s.epoch) (hh : t.hb = s.hb) :
    t.rowBytes = s.rowBytes := by
  funext r
  simp [State.rowBytes, State.hbByte, hp, he, hh]

theorem State.splice_congr {s t : State} (hp : t.params = s.params) (he : t.epoch = s.epoch) (hm : t.mb = s.mb)
    (hw : t.w = s.w) : t.splice = s.splice := by
  funext offset r seg
  simp [State.splice, State.src, State.mbByte, hp, he, hm, hw]

@[simp] theorem State.hbByte_rowSelect (s : State) (r : Fin 8) : s.hbByte r s.params.n = rowSelect r := by
  simp [State.hbByte]

theorem State.hbByte_data (s : State) (r : Fin 8) {c : Nat} (hc : c < s.params.n) :
    s.hbByte r c = s.hb.byteAt s.epoch .hb (hbAddr s.params r c) := by
  simp [State.hbByte, Nat.ne_of_lt hc]

/-- A row write is the data bytes, then the row-select byte. -/
theorem State.rowBytes_eq (s : State) (r : Fin 8) :
    s.rowBytes r = (List.range s.params.n).map (s.hbByte r) ++ [rowSelect r] := by
  simp [State.rowBytes, List.range_succ]

/-! ## The buffer updates -/

theorem State.writeHb_eq (s : State) (r : Fin 8) (c : Nat) (v : Byte) :
    s.writeHb r c v = s.withHb (s.hb.write (hbAddr s.params r c) v) := rfl

theorem State.writeMb_eq (s : State) (r : Fin 8) (j : Nat) (v : Byte) :
    s.writeMb r j v = s.withMb (s.mb.write (mbAddr s.params r j) v) := rfl

/-- A write of one data byte: that byte changes, every other byte of the buffer reads as before. -/
theorem State.hbByte_writeHb (s : State) (r r' : Fin 8) {c c' : Nat} (v : Byte) (hc : c < s.params.n)
    (hc' : c' ≤ s.params.n) : (s.writeHb r c v).hbByte r' c' = if r' = r ∧ c' = c then v else s.hbByte r' c' := by
  rcases Nat.lt_or_eq_of_le hc' with hlt | rfl
  · by_cases h : r' = r ∧ c' = c
    · obtain ⟨rfl, rfl⟩ := h
      simp [State.hbByte, State.writeHb_eq, Memory.byteAt, Nat.ne_of_lt hlt]
    · have hne : hbAddr s.params r c ≠ hbAddr s.params r' c' := fun heq =>
        h ⟨(hbAddr_inj hc.le hc' heq).1.symm, (hbAddr_inj hc.le hc' heq).2.symm⟩
      simp [State.hbByte, State.writeHb_eq, Memory.byteAt, Memory.read?_write_of_ne _ _ hne, h]
  · have : s.params.n ≠ c := by omega
    simp [State.hbByte, State.writeHb_eq, this]

/-- A write of one message byte: that byte changes, every other byte of the message memory reads as before. -/
theorem State.mbByte_writeMb (s : State) (r r' : Fin 8) {j j' : Nat} (v : Byte) (hj : j < s.params.wmax)
    (hj' : j' < s.params.wmax) : (s.writeMb r j v).mbByte r' j' = if r' = r ∧ j' = j then v else s.mbByte r' j' := by
  by_cases h : r' = r ∧ j' = j
  · obtain ⟨rfl, rfl⟩ := h
    simp [State.mbByte, State.writeMb_eq, Memory.byteAt]
  · have hne : mbAddr s.params r j ≠ mbAddr s.params r' j' := fun heq =>
      h ⟨(mbAddr_inj hj hj' heq).1.symm, (mbAddr_inj hj hj' heq).2.symm⟩
    simp [State.mbByte, State.writeMb_eq, Memory.byteAt, Memory.read?_write_of_ne _ _ hne, h]

theorem State.fillHb_eq (s : State) (f : Fin 8 → Nat → Byte) :
    s.fillHb f = s.withHb (s.hb.writeAll (gridCells (hbAddr s.params) s.params.n f)) := rfl

/-- Filling writes every data cell. -/
theorem State.read?_fillHb (s : State) (f : Fin 8 → Nat → Byte) (r : Fin 8) {c : Nat} (hc : c < s.params.n) :
    (s.fillHb f).hb.read? (hbAddr s.params r c) = some (f r c) := by
  refine Memory.read?_writeAll_of_mem _ _ _ _ ⟨_, (mem_gridCells _ _ _ _).mpr ⟨r, c, hc, rfl⟩, rfl⟩ ?_
  intro cell hcell haddr
  obtain ⟨r', c', hc', rfl⟩ := (mem_gridCells _ _ _ _).mp hcell
  obtain ⟨rfl, rfl⟩ := hbAddr_inj hc'.le hc.le haddr
  rfl

/-- After filling, a data byte is what was filled in; the row-select column is as ever. -/
theorem State.hbByte_fillHb (s : State) (f : Fin 8 → Nat → Byte) (r : Fin 8) {c : Nat} (hc : c < s.params.n) :
    (s.fillHb f).hbByte r c = f r c := by
  have h := s.read?_fillHb f r hc
  have hc' : c < (s.fillHb f).params.n := hc
  rw [State.hbByte_data _ _ hc', Memory.byteAt,
    show hbAddr (s.fillHb f).params r c = hbAddr s.params r c from rfl, h]

/-- Rows of a filled buffer. -/
theorem State.rowBytes_fillHb (s : State) (f : Fin 8 → Nat → Byte) (r : Fin 8) :
    (s.fillHb f).rowBytes r = (List.range s.params.n).map (f r) ++ [rowSelect r] := by
  rw [State.rowBytes_eq]
  refine congrArg (· ++ [rowSelect r]) (List.map_congr_left fun c hc => ?_)
  exact s.hbByte_fillHb f r (List.mem_range.mp hc)

theorem State.blankMb_eq (s : State) (width : Nat) :
    s.blankMb width = s.withMb (s.mb.writeAll (gridCells (mbAddr s.params) width (fun _ _ => 0x00#8))) := rfl

/-- Blanking writes zero into every column below the new width. -/
theorem State.read?_blankMb (s : State) {width : Nat} (r : Fin 8) {j : Nat} (hj : j < width) :
    (s.blankMb width).mb.read? (mbAddr s.params r j) = some 0x00#8 := by
  refine Memory.read?_writeAll_of_mem _ _ _ _ ⟨_, (mem_gridCells _ _ _ _).mpr ⟨r, j, hj, rfl⟩, rfl⟩ ?_
  intro cell hcell _
  obtain ⟨r', j', -, rfl⟩ := (mem_gridCells _ _ _ _).mp hcell
  rfl

/-- After blanking, the columns below the new width are zero and every other column of the memory reads as before. -/
theorem State.mbByte_blankMb (s : State) {width : Nat} (_hw : width ≤ s.params.wmax) (r : Fin 8) {j : Nat}
    (hj : j < s.params.wmax) : (s.blankMb width).mbByte r j = if j < width then 0x00#8 else s.mbByte r j := by
  split
  · rename_i hlt
    have h := s.read?_blankMb r hlt
    rw [State.mbByte, Memory.byteAt, show mbAddr (s.blankMb width).params r j = mbAddr s.params r j from rfl, h]
  · rename_i hge
    have h : (s.blankMb width).mb.read? (mbAddr s.params r j) = s.mb.read? (mbAddr s.params r j) := by
      refine Memory.read?_writeAll_of_notMem _ _ _ fun cell hcell heq => ?_
      obtain ⟨r', j', hj', rfl⟩ := (mem_gridCells _ _ _ _).mp hcell
      have := (mbAddr_inj (by omega) hj heq).2
      omega
    simp only [State.mbByte, Memory.byteAt]
    rw [show mbAddr (s.blankMb width).params r j = mbAddr s.params r j from rfl, h]
    rfl

theorem State.composeAt_eq (s : State) (offset : Nat) : s.composeAt offset = s.fillHb (s.splice offset) := rfl

/-- The compositing step writes the splice into every data byte (R136). -/
theorem State.hbByte_composeAt (s : State) (offset : Nat) (r : Fin 8) {c : Nat} (hc : c < s.params.n) :
    (s.composeAt offset).hbByte r c = s.splice offset r c := s.hbByte_fillHb _ r hc

theorem State.rowBytes_composeAt (s : State) (offset : Nat) (r : Fin 8) :
    (s.composeAt offset).rowBytes r = (List.range s.params.n).map (s.splice offset r) ++ [rowSelect r] :=
  s.rowBytes_fillHb _ r

/-- The compositing step writes no field but `HB`. -/
theorem State.composeAt_frame (s : State) (offset : Nat) :
    s.composeAt offset = { s with hb := (s.composeAt offset).hb } := rfl

/-! ## The link -/

@[simp] theorem Link.answerAt_write (l : Link) (bytes : List Byte) (j : Nat) :
    (l.write bytes).answerAt j = l.answerAt (j + 1) := by
  obtain ⟨script, log⟩ := l
  cases script with
  | nil =>
    have harith : log.length + 1 + j = log.length + (j + 1) := by omega
    simp [Link.write, Link.answerAt, harith]
  | cons a rest =>
    simp only [Link.write, Link.answerAt, List.tail_cons, List.getElem?_cons_succ, List.length_append,
      List.length_singleton]
    rw [Nat.add_assoc, Nat.add_comm 1 j]

/-- A link after `k` more row writes, recorded as `writes`. -/
def Link.after (l : Link) (k : Nat) (writes : List RowWrite) : Link :=
  { script := l.script.drop k, log := l.log ++ writes }

@[simp] theorem Link.after_script (l : Link) (k : Nat) (writes : List RowWrite) :
    (l.after k writes).script = l.script.drop k := rfl

@[simp] theorem Link.after_log (l : Link) (k : Nat) (writes : List RowWrite) :
    (l.after k writes).log = l.log ++ writes := rfl

theorem Link.after_after (l : Link) (k k' : Nat) (writes writes' : List RowWrite) :
    (l.after k writes).after k' writes' = l.after (k + k') (writes ++ writes') := by
  simp [Link.after]

theorem Link.write_eq_after (l : Link) (bytes : List Byte) :
    l.write bytes = l.after 1 [{ bytes := bytes, answer := l.answerAt 0 }] := by
  simp [Link.write, Link.after]

/-- After `k` recorded writes the next answer is the one that was `k` writes away. -/
theorem Link.answerAt_after (l : Link) (writes : List RowWrite) (j : Nat) :
    (l.after writes.length writes).answerAt j = l.answerAt (writes.length + j) := by
  simp only [Link.answerAt, Link.after, List.getElem?_drop, List.length_append, Nat.add_assoc]

/-- The record of a row the link took. -/
def sentRow (f : Fin 8 → List Byte) (r : Fin 8) : RowWrite := { bytes := f r, answer := .ok }

/-- Every row answered `ok`: all rows are sent, in order (R152). -/
theorem Link.sendRows_of_ok (f : Fin 8 → List Byte) (rows : List (Fin 8)) (l : Link)
    (h : ∀ j < rows.length, l.answerAt j = .ok) :
    l.sendRows f rows =
      (l.after rows.length (rows.map (sentRow f)), .done) := by
  induction rows generalizing l with
  | nil => simp [Link.sendRows, Link.after]
  | cons r rest ih =>
    have h0 : l.answerAt 0 = .ok := h 0 (by simp)
    have hrest : ∀ j < rest.length, (l.write (f r)).answerAt j = .ok := fun j hj => by
      rw [Link.answerAt_write]
      exact h (j + 1) (by simpa using hj)
    simp only [Link.sendRows, h0, ih _ hrest]
    rw [Link.write_eq_after, Link.after_after, h0]
    simp [sentRow, Nat.add_comm]

/-- How a transmission ends at an answer that is not `ok` (R153, R156). -/
def resultAt (row : Fin 8) : LinkAnswer → TxResult
  | .ok => .done
  | .error => .failed
  | .never => .stalled row

/-- The first answer that is not `ok` ends the transmission: the rows before it were sent, its own row was issued, and no
later one (R153, R156). -/
theorem Link.sendRows_of_stop (f : Fin 8 → List Byte) (rows : List (Fin 8)) (l : Link) (k : Nat) (row : Fin 8)
    (hrow : rows[k]? = some row) (h : ∀ j < k, l.answerAt j = .ok) (hk : l.answerAt k ≠ .ok) :
    l.sendRows f rows =
      (l.after (k + 1) ((rows.take k).map (sentRow f) ++ [{ bytes := f row, answer := l.answerAt k }]),
        resultAt row (l.answerAt k)) := by
  induction rows generalizing l k with
  | nil => simp at hrow
  | cons r rest ih =>
    cases k with
    | zero =>
      obtain rfl : r = row := by simpa using hrow
      cases ha : l.answerAt 0 with
      | ok => exact absurd ha hk
      | error => simp [Link.sendRows, ha, Link.write_eq_after, resultAt]
      | never => simp [Link.sendRows, ha, Link.write_eq_after, resultAt]
    | succ k =>
      have h0 : l.answerAt 0 = .ok := h 0 (by omega)
      have hrest : ∀ j < k, (l.write (f r)).answerAt j = .ok := fun j hj => by
        rw [Link.answerAt_write]
        exact h (j + 1) (by omega)
      have hk' : (l.write (f r)).answerAt k ≠ .ok := by rwa [Link.answerAt_write]
      have hih := ih (l.write (f r)) k (by simpa using hrow) hrest hk'
      simp only [Link.sendRows, h0, hih, Link.answerAt_write]
      rw [Link.write_eq_after, Link.after_after, h0]
      simp [sentRow, Nat.add_comm]

/-- Every transmission is one of the two: all answers `ok`, or a first one that is not. -/
theorem Link.answers_ok_or_stop (l : Link) (n : Nat) :
    (∀ j < n, l.answerAt j = .ok) ∨ ∃ k < n, (∀ j < k, l.answerAt j = .ok) ∧ l.answerAt k ≠ .ok := by
  induction n with
  | zero => exact .inl fun j hj => absurd hj (Nat.not_lt_zero j)
  | succ n ih =>
    rcases ih with hall | ⟨k, hk, hbefore, hstop⟩
    · by_cases hn : l.answerAt n = .ok
      · refine .inl fun j hj => ?_
        rcases Nat.lt_succ_iff_lt_or_eq.mp hj with hj | rfl
        · exact hall j hj
        · exact hn
      · exact .inr ⟨n, Nat.lt_succ_self n, hall, hn⟩
    · exact .inr ⟨k, Nat.lt_succ_of_lt hk, hbefore, hstop⟩

/-! ## The transmitter -/

@[simp] theorem allRows_length : allRows.length = 8 := rfl

theorem allRows_getElem? (row : Fin 8) : allRows[row.val]? = some row := by
  revert row
  decide

theorem State.transmit_fst (s : State) : s.transmit.1 = s.withLink (s.link.sendRows s.rowBytes allRows).1 := rfl

theorem State.transmit_snd (s : State) : s.transmit.2 = (s.link.sendRows s.rowBytes allRows).2 := rfl

/-- A frame whose eight answers are `ok` (R152). -/
theorem State.transmit_of_ok (s : State) (h : ∀ j < 8, s.link.answerAt j = .ok) :
    s.transmit =
      (s.withLink (s.link.after 8 (allRows.map (sentRow s.rowBytes))), .done) := by
  simp only [State.transmit, Link.sendRows_of_ok s.rowBytes allRows s.link h, allRows_length]

/-- A frame whose first answer that is not `ok` is that of `row` (R153, R156). -/
theorem State.transmit_of_stop (s : State) (row : Fin 8) (h : ∀ j < row.val, s.link.answerAt j = .ok)
    (hk : s.link.answerAt row.val ≠ .ok) :
    s.transmit =
      (s.withLink (s.link.after (row.val + 1)
          ((allRows.take row.val).map (sentRow s.rowBytes) ++
            [{ bytes := s.rowBytes row, answer := s.link.answerAt row.val }])),
        resultAt row (s.link.answerAt row.val)) := by
  rw [State.transmit, Link.sendRows_of_stop _ _ _ row.val row (allRows_getElem? row) h hk]

/-- All that a transmission can do to the state: it writes the link and nothing else (R63). -/
theorem State.transmit_frame (s : State) : s.transmit.1 = { s with link := s.transmit.1.link } := rfl

/-! ## The sweep -/

theorem State.sweep_zero (s : State) (off : Nat) : s.sweep 0 off = (s, .done, off) := rfl

/-- A frame that was sent whole is followed by the sweep of the next offset (R161, R165). -/
theorem State.sweep_succ_of_done (s : State) (frames off : Nat) (h : (s.composeAt off).transmit.2 = .done) :
    s.sweep (frames + 1) off = (s.composeAt off).transmit.1.sweep frames (off + 1) := by
  simp [State.sweep, h]

/-- A frame that was not ends the sweep (R166, R156). -/
theorem State.sweep_succ_of_stop (s : State) (frames off : Nat) (h : (s.composeAt off).transmit.2 ≠ .done) :
    s.sweep (frames + 1) off = ((s.composeAt off).transmit.1, (s.composeAt off).transmit.2, off) := by
  simp only [State.sweep]

/-- All that a sweep can do to the state: it writes `HB` and the link and nothing else. -/
theorem State.sweep_frame (frames off : Nat) (s : State) :
    (s.sweep frames off).1 =
      { s with hb := (s.sweep frames off).1.hb, link := (s.sweep frames off).1.link } := by
  induction frames generalizing off s with
  | zero => rfl
  | succ frames ih =>
    by_cases h : (s.composeAt off).transmit.2 = .done
    · rw [State.sweep_succ_of_done _ _ _ h, ih]
      rfl
    · rw [State.sweep_succ_of_stop _ _ _ h]
      rfl

/-- One row of the frame for an offset (R54, R136). -/
def State.composedRow (s : State) (off : Nat) (r : Fin 8) : List Byte :=
  (List.range s.params.n).map (s.splice off r) ++ [rowSelect r]

theorem State.composedRow_congr {s t : State} (hp : t.params = s.params) (he : t.epoch = s.epoch) (hm : t.mb = s.mb)
    (hw : t.w = s.w) : t.composedRow = s.composedRow := by
  funext off r
  simp [State.composedRow, State.splice_congr hp he hm hw, hp]

theorem State.rowBytes_composeAt_eq (s : State) (off : Nat) : (s.composeAt off).rowBytes = s.composedRow off := by
  funext r
  exact s.rowBytes_composeAt off r

/-- The row writes of the first `frames` frames of a sweep, all taken by the link (R161, R165). -/
def State.sweptWrites (s : State) (frames off : Nat) : List RowWrite :=
  (List.range frames).flatMap fun m => allRows.map (sentRow (s.composedRow (off + m)))

@[simp] theorem State.sweptWrites_length (s : State) (frames off : Nat) : (s.sweptWrites frames off).length = 8 * frames := by
  simp [State.sweptWrites, Nat.mul_comm]

theorem State.sweptWrites_succ (s : State) (frames off : Nat) :
    s.sweptWrites (frames + 1) off =
      allRows.map (sentRow (s.composedRow off)) ++ s.sweptWrites frames (off + 1) := by
  simp only [State.sweptWrites, List.range_succ_eq_map, List.flatMap_cons, List.flatMap_map, Nat.add_zero]
  refine congrArg _ (List.flatMap_congr fun m _ => ?_)
  rw [show off + m.succ = off + 1 + m by omega]

/-- One composed frame whose eight answers are `ok`. -/
theorem State.transmit_composeAt_of_ok (s : State) (off : Nat) (h : ∀ j < 8, s.link.answerAt j = .ok) :
    (s.composeAt off).transmit =
      ((s.composeAt off).withLink (s.link.after 8 (allRows.map (sentRow (s.composedRow off)))), .done) := by
  rw [(s.composeAt off).transmit_of_ok h, State.rowBytes_composeAt_eq]
  rfl

/-- One composed frame cut at `row`. -/
theorem State.transmit_composeAt_of_stop (s : State) (off : Nat) (row : Fin 8)
    (h : ∀ j < row.val, s.link.answerAt j = .ok) (hk : s.link.answerAt row.val ≠ .ok) :
    (s.composeAt off).transmit =
      ((s.composeAt off).withLink (s.link.after (row.val + 1)
          ((allRows.take row.val).map (sentRow (s.composedRow off)) ++
            [{ bytes := s.composedRow off row, answer := s.link.answerAt row.val }])),
        resultAt row (s.link.answerAt row.val)) := by
  rw [(s.composeAt off).transmit_of_stop row h hk, State.rowBytes_composeAt_eq]
  rfl

/-- A sweep whose answers are all `ok`: every frame is sent, and `HB` holds the last one (R161). -/
theorem State.sweep_of_ok (frames off : Nat) (s : State) (h : ∀ j < 8 * frames, s.link.answerAt j = .ok) :
    ∃ t, s.sweep frames off = (t, .done, off + frames) ∧
      t = { s with hb := t.hb, link := s.link.after (8 * frames) (s.sweptWrites frames off) } ∧
      (0 < frames → ∀ r c, c < s.params.n → t.hbByte r c = s.splice (off + frames - 1) r c) := by
  induction frames generalizing off s with
  | zero => exact ⟨s, rfl, by simp [State.sweptWrites, Link.after], fun h0 => absurd h0 (Nat.lt_irrefl 0)⟩
  | succ frames ih =>
    have hsend := s.transmit_composeAt_of_ok off fun j hj => h j (by omega)
    have hdone : (s.composeAt off).transmit.2 = .done := by rw [hsend]
    have hlen : (allRows.map (sentRow (s.composedRow off))).length = 8 := by simp
    rw [State.sweep_succ_of_done _ _ _ hdone, hsend]
    obtain ⟨t, hsweep, hframe, hlast⟩ := ih (off + 1)
      ((s.composeAt off).withLink (s.link.after 8 (allRows.map (sentRow (s.composedRow off))))) fun j hj => by
        have := Link.answerAt_after s.link (allRows.map (sentRow (s.composedRow off))) j
        rw [hlen] at this
        exact this.trans (h _ (by omega))
    have hp : t.params = s.params := by rw [hframe]; rfl
    have he : t.epoch = s.epoch := by rw [hframe]; rfl
    refine ⟨t, by rw [hsweep, show off + 1 + frames = off + (frames + 1) by omega], ?_, fun _ r c hc => ?_⟩
    · rw [hframe]
      have hw : ((s.composeAt off).withLink (s.link.after 8 (allRows.map (sentRow (s.composedRow off))))).sweptWrites
          frames (off + 1) = s.sweptWrites frames (off + 1) := rfl
      simp only [State.withLink_link, hw, Link.after_after, State.sweptWrites_succ,
        show 8 + 8 * frames = 8 * (frames + 1) by omega]
      rfl
    · rcases Nat.eq_zero_or_pos frames with rfl | hpos
      · obtain rfl : t = _ := (Prod.mk.inj hsweep).1.symm
        exact s.hbByte_composeAt off r hc
      · rw [hlast hpos r c hc, show off + 1 + frames - 1 = off + (frames + 1) - 1 by omega]
        rfl

/-- A sweep stopped in frame `m` at `row`: the frames before it were sent whole, that frame up to the stop, and `HB`
holds it whole (R166, R156). -/
theorem State.sweep_of_stop (frames off : Nat) (s : State) (m : Nat) (row : Fin 8) (hm : m < frames)
    (h : ∀ j < 8 * m + row.val, s.link.answerAt j = .ok) (hk : s.link.answerAt (8 * m + row.val) ≠ .ok) :
    ∃ t, s.sweep frames off = (t, resultAt row (s.link.answerAt (8 * m + row.val)), off + m) ∧
      t = { s with
            hb := t.hb,
            link := s.link.after (8 * m + row.val + 1)
              (s.sweptWrites m off ++ (allRows.take row.val).map (sentRow (s.composedRow (off + m))) ++
                [{ bytes := s.composedRow (off + m) row, answer := s.link.answerAt (8 * m + row.val) }]) } ∧
      ∀ r c, c < s.params.n → t.hbByte r c = s.splice (off + m) r c := by
  induction frames generalizing off s m with
  | zero => exact absurd hm (Nat.not_lt_zero m)
  | succ frames ih =>
    cases m with
    | zero =>
      have h' : ∀ j < row.val, s.link.answerAt j = .ok := fun j hj => h j (by omega)
      have hk' : s.link.answerAt row.val ≠ .ok := by simpa using hk
      have hsend := s.transmit_composeAt_of_stop off row h' hk'
      have hnot : (s.composeAt off).transmit.2 ≠ .done := by
        rw [hsend]
        cases ha : s.link.answerAt row.val with
        | ok => exact absurd ha hk'
        | error => simp [resultAt]
        | never => simp [resultAt]
      rw [State.sweep_succ_of_stop _ _ _ hnot, hsend]
      have hidx : 8 * 0 + row.val = row.val := by omega
      have hnone : s.sweptWrites 0 off = [] := rfl
      simp only [hidx, hnone, List.nil_append, Nat.add_zero]
      exact ⟨_, rfl, rfl, fun r c hc => s.hbByte_composeAt off r hc⟩
    | succ m =>
      have hsend := s.transmit_composeAt_of_ok off fun j hj => h j (by omega)
      have hdone : (s.composeAt off).transmit.2 = .done := by rw [hsend]
      have hlen : (allRows.map (sentRow (s.composedRow off))).length = 8 := by simp
      have hans : ∀ j, (s.link.after 8 (allRows.map (sentRow (s.composedRow off)))).answerAt j =
          s.link.answerAt (8 + j) := fun j => by
        have := Link.answerAt_after s.link (allRows.map (sentRow (s.composedRow off))) j
        rwa [hlen] at this
      rw [State.sweep_succ_of_done _ _ _ hdone, hsend]
      have hidx : 8 + (8 * m + row.val) = 8 * (m + 1) + row.val := by omega
      obtain ⟨t, hsweep, hframe, hlast⟩ := ih (off + 1)
        ((s.composeAt off).withLink (s.link.after 8 (allRows.map (sentRow (s.composedRow off))))) m (by omega)
        (fun j hj => (hans j).trans (h _ (by omega)))
        (by rw [State.withLink_link, hans, hidx]; exact hk)
      simp only [State.withLink_link, hans, hidx] at hsweep hframe
      refine ⟨t, by rw [hsweep, show off + 1 + m = off + (m + 1) by omega], ?_, fun r c hc => ?_⟩
      · rw [hframe]
        have hw : ((s.composeAt off).withLink (s.link.after 8 (allRows.map (sentRow (s.composedRow off))))).sweptWrites
            m (off + 1) = s.sweptWrites m (off + 1) := rfl
        have hr : ((s.composeAt off).withLink (s.link.after 8 (allRows.map (sentRow (s.composedRow off))))).composedRow
            = s.composedRow := rfl
        simp only [hw, hr, Link.after_after, State.sweptWrites_succ, List.append_assoc,
          show 8 + (8 * m + row.val + 1) = 8 * (m + 1) + row.val + 1 by omega,
          show off + 1 + m = off + (m + 1) by omega]
        rfl
      · rw [hlast r c hc, show off + 1 + m = off + (m + 1) by omega]
        rfl

/-- The number of frames of a sweep, in natural numbers: `max(1, bound − start)` (R164). -/
theorem sweepFrames_eq (p : Params) (w : BitVec 16) (start : Nat) :
    sweepFrames p w start = max 1 (8 * w.toNat - 8 * p.n - start) := by
  simp only [sweepFrames, sweepLast, sweepBound]
  omega

end Sys2Proof.Machine
end

