-- ==== Sys2Proof/Laws/Exec.lean ====
section
/-! SUPPORT. What one instruction and one step can do: every meaning is the channel's check over one effect, and each effect's
reach is said once. -/

namespace Sys2Proof.Machine

/-- The state an instruction leads to where the engine is idle. -/
def effect : Instr → State → State
  | .nop, s => s.completeOk
  | .clear value, s => (s.fillHb (fun _ _ => value)).completeOk
  | .plot col row isOn, s =>
    (s.writeHb (plotRow row) (segmentOf (plotColumn s.params col))
      (plotByte isOn (bitOf (plotColumn s.params col))
        (s.hbByte (plotRow row) (segmentOf (plotColumn s.params col))))).completeOk
  | .ldmsg row col data, s =>
    if s.w.toNat ≤ col.toNat then s.raiseError .range else (s.writeMb (rowIndex row) col.toNat data).completeOk
  | .newmsg w, s =>
    if s.params.wmax < w.toNat then s.raiseError .range else ((s.blankMb w.toNat).withW w).completeOk
  | .compose offset, s => (s.composeAt offset.toNat).completeOk
  | .xmit, s => s.transmit.1.finish none s.transmit.2
  | .display offset, s =>
    if s.w = 0#16 then s.completeOk
    else (s.composeAt offset.toNat).transmit.1.finish none (s.composeAt offset.toNat).transmit.2
  | .scroll start, s =>
    if s.w = 0#16 then s.completeOk
    else
      (s.sweep (sweepFrames s.params s.w start.toNat) start.toNat).1.finish
        (some (s.sweep (sweepFrames s.params s.w start.toNat) start.toNat).2.2)
        (s.sweep (sweepFrames s.params s.w start.toNat) start.toNat).2.1
  | .clrf, s => (s.withStatus (Status.clearSticky s.status)).completeOk
  | .rdhb row col, s =>
    if s.params.n < col.toNat then s.raiseError .range
    else s.complete .ok 0#16 (s.hbByte (rowIndex row) col.toNat)
  | .rdmb row col, s =>
    if s.w.toNat ≤ col.toNat then s.raiseError .range
    else s.complete .ok 0#16 (s.mbByte (rowIndex row) col.toNat)
  | .rdst, s => s.completeRead s.w (Status.read s.status)
  | .rdcfg, s => s.completeRead (BitVec.ofNat 16 s.params.wmax) (BitVec.ofNat 8 s.params.n)
  | .reservedE _, s => s.raiseError .illegal
  | .reservedF _, s => s.raiseError .illegal

/-- Every meaning is the channel's check over the instruction's effect. -/
theorem exec_eq_whenIdle (i : Instr) (s : State) : exec i s = whenIdle s (effect i s) := by
  cases i with
  | display offset =>
    simp only [exec, execDisplay, effect]
    split <;> rfl
  | scroll start =>
    simp only [exec, execScroll, effect]
    split <;> rfl
  | _ => rfl

/-- Inversion of `exec`: it answers a next state only from an idle engine, and that state is the effect. -/
theorem exec_next_iff (i : Instr) (s t : State) : exec i s = .next t ↔ s.engine = .idle ∧ effect i s = t := by
  rw [exec_eq_whenIdle, whenIdle_next_iff]

theorem exec_of_idle (i : Instr) {s : State} (h : s.engine = .idle) : exec i s = .next (effect i s) :=
  (exec_next_iff i s _).mpr ⟨h, rfl⟩

theorem exec_of_executing (i : Instr) {s : State} {off : Option Nat} {row : Fin 8}
    (h : s.engine = .executing off row) : exec i s = .refused .commandWhileBusy := by
  rw [exec_eq_whenIdle, whenIdle_executing s _ off row h]

/-! ## Where a transmission or a sweep ends -/

/-- Every transmission sends the whole frame, or stops at one row. -/
theorem State.transmit_cases (s : State) :
    (∀ j < 8, s.link.answerAt j = .ok) ∨
      ∃ row : Fin 8, (∀ j < row.val, s.link.answerAt j = .ok) ∧ s.link.answerAt row.val ≠ .ok := by
  rcases s.link.answers_ok_or_stop 8 with h | ⟨k, hk, hbefore, hstop⟩
  · exact .inl h
  · exact .inr ⟨⟨k, hk⟩, hbefore, hstop⟩

/-- Every sweep sends all its frames, or stops in one frame at one row. -/
theorem State.sweep_cases (s : State) (frames : Nat) :
    (∀ j < 8 * frames, s.link.answerAt j = .ok) ∨
      ∃ (m : Nat) (row : Fin 8), m < frames ∧ (∀ j < 8 * m + row.val, s.link.answerAt j = .ok) ∧
        s.link.answerAt (8 * m + row.val) ≠ .ok := by
  rcases s.link.answers_ok_or_stop (8 * frames) with h | ⟨k, hk, hbefore, hstop⟩
  · exact .inl h
  · refine .inr ⟨k / 8, ⟨k % 8, Nat.mod_lt _ (by decide)⟩, by omega, ?_, ?_⟩
    · intro j hj
      exact hbefore j (by simp only at hj; omega)
    · simpa [Nat.div_add_mod] using hstop

@[simp] theorem resultAt_error (row : Fin 8) : resultAt row .error = .failed := rfl
@[simp] theorem resultAt_never (row : Fin 8) : resultAt row .never = .stalled row := rfl

/-- How a command ends: it writes STATUS and the responses, or, where it stalled, the engine. -/
theorem State.finish_frame (s : State) (off : Option Nat) (result : TxResult) :
    s.finish off result =
      { s with
        status := (s.finish off result).status, responses := (s.finish off result).responses,
        engine := (s.finish off result).engine } := by
  cases result <;> rfl

@[simp] theorem State.finish_done (s : State) (off : Option Nat) : s.finish off .done = s.completeOk := rfl
@[simp] theorem State.finish_failed (s : State) (off : Option Nat) : s.finish off .failed = s.raiseError .txFail := rfl
@[simp] theorem State.finish_stalled (s : State) (off : Option Nat) (row : Fin 8) :
    s.finish off (.stalled row) = s.withEngine (.executing off row) := rfl

end Sys2Proof.Machine
end

