-- ==== Sys2Proof/Laws/PerInstr.lean ====
section
/-! SUPPORT. Statements about every instruction as syntax, one lemma per constructor. -/

namespace Sys2Proof.Laws.EncodingFitsRow

/-- The word of an instruction lies in the row of the opcode map that has its mnemonic (30_encoding.md R84). -/
def Statement (i : Instr) : Prop :=
  ∃ row ∈ commandRows ++ reservedRows, row.mnemonic = i.mnemonic ∧ encode i &&& row.mask = row.pattern

theorem nop : Statement .nop := by
  refine ⟨⟨"NOP", 0xFFFFFFFF#32, 0x00000000#32⟩, by simp [commandRows, reservedRows], rfl, ?_⟩
  apply BitVec.eq_of_getLsbD_eq
  intro i hi
  simp only [encode, formatZ, BitVec.getLsbD_and, BitVec.getLsbD_append]
  interval_cases i <;> simp

theorem clear (value : BitVec 8) : Statement (.clear value) := by
  refine ⟨⟨"CLEAR", 0xFFFFFF00#32, 0x10000000#32⟩, by simp [commandRows, reservedRows], rfl, ?_⟩
  apply BitVec.eq_of_getLsbD_eq
  intro i hi
  simp only [encode, formatV, BitVec.getLsbD_and, BitVec.getLsbD_append]
  interval_cases i <;> simp

theorem plot (col : BitVec 16) (row : BitVec 8) (isOn : Bool) : Statement (.plot col row isOn) := by
  refine ⟨⟨"PLOT", 0xFE000000#32, 0x20000000#32⟩, by simp [commandRows, reservedRows], rfl, ?_⟩
  apply BitVec.eq_of_getLsbD_eq
  intro i hi
  simp only [encode, formatP, BitVec.getLsbD_and, BitVec.getLsbD_append]
  interval_cases i <;> simp

theorem ldmsg (row : BitVec 3) (col : BitVec 16) (data : BitVec 8) : Statement (.ldmsg row col data) := by
  refine ⟨⟨"LDMSG", 0xF8000000#32, 0x30000000#32⟩, by simp [commandRows, reservedRows], rfl, ?_⟩
  apply BitVec.eq_of_getLsbD_eq
  intro i hi
  simp only [encode, formatM, BitVec.getLsbD_and, BitVec.getLsbD_append]
  interval_cases i <;> simp

theorem newmsg (w : BitVec 16) : Statement (.newmsg w) := by
  refine ⟨⟨"NEWMSG", 0xFF0000FF#32, 0x40000000#32⟩, by simp [commandRows, reservedRows], rfl, ?_⟩
  apply BitVec.eq_of_getLsbD_eq
  intro i hi
  simp only [encode, formatW, BitVec.getLsbD_and, BitVec.getLsbD_append]
  interval_cases i <;> simp

theorem compose (offset : BitVec 24) : Statement (.compose offset) := by
  refine ⟨⟨"COMPOSE", 0xFF000000#32, 0x50000000#32⟩, by simp [commandRows, reservedRows], rfl, ?_⟩
  apply BitVec.eq_of_getLsbD_eq
  intro i hi
  simp only [encode, formatO, BitVec.getLsbD_and, BitVec.getLsbD_append]
  interval_cases i <;> simp

theorem xmit : Statement .xmit := by
  refine ⟨⟨"XMIT", 0xFFFFFFFF#32, 0x60000000#32⟩, by simp [commandRows, reservedRows], rfl, ?_⟩
  apply BitVec.eq_of_getLsbD_eq
  intro i hi
  simp only [encode, formatZ, BitVec.getLsbD_and, BitVec.getLsbD_append]
  interval_cases i <;> simp

theorem display (offset : BitVec 24) : Statement (.display offset) := by
  refine ⟨⟨"DISPLAY", 0xFF000000#32, 0x70000000#32⟩, by simp [commandRows, reservedRows], rfl, ?_⟩
  apply BitVec.eq_of_getLsbD_eq
  intro i hi
  simp only [encode, formatO, BitVec.getLsbD_and, BitVec.getLsbD_append]
  interval_cases i <;> simp

theorem scroll (start : BitVec 24) : Statement (.scroll start) := by
  refine ⟨⟨"SCROLL", 0xFF000000#32, 0x80000000#32⟩, by simp [commandRows, reservedRows], rfl, ?_⟩
  apply BitVec.eq_of_getLsbD_eq
  intro i hi
  simp only [encode, formatO, BitVec.getLsbD_and, BitVec.getLsbD_append]
  interval_cases i <;> simp

theorem clrf : Statement .clrf := by
  refine ⟨⟨"CLRF", 0xFFFFFFFF#32, 0x90000000#32⟩, by simp [commandRows, reservedRows], rfl, ?_⟩
  apply BitVec.eq_of_getLsbD_eq
  intro i hi
  simp only [encode, formatZ, BitVec.getLsbD_and, BitVec.getLsbD_append]
  interval_cases i <;> simp

theorem rdhb (row : BitVec 3) (col : BitVec 16) : Statement (.rdhb row col) := by
  refine ⟨⟨"RDHB", 0xF80000FF#32, 0xA0000000#32⟩, by simp [commandRows, reservedRows], rfl, ?_⟩
  apply BitVec.eq_of_getLsbD_eq
  intro i hi
  simp only [encode, formatR, BitVec.getLsbD_and, BitVec.getLsbD_append]
  interval_cases i <;> simp

theorem rdmb (row : BitVec 3) (col : BitVec 16) : Statement (.rdmb row col) := by
  refine ⟨⟨"RDMB", 0xF80000FF#32, 0xB0000000#32⟩, by simp [commandRows, reservedRows], rfl, ?_⟩
  apply BitVec.eq_of_getLsbD_eq
  intro i hi
  simp only [encode, formatR, BitVec.getLsbD_and, BitVec.getLsbD_append]
  interval_cases i <;> simp

theorem rdst : Statement .rdst := by
  refine ⟨⟨"RDST", 0xFFFFFFFF#32, 0xC0000000#32⟩, by simp [commandRows, reservedRows], rfl, ?_⟩
  apply BitVec.eq_of_getLsbD_eq
  intro i hi
  simp only [encode, formatZ, BitVec.getLsbD_and, BitVec.getLsbD_append]
  interval_cases i <;> simp

theorem rdcfg : Statement .rdcfg := by
  refine ⟨⟨"RDCFG", 0xFFFFFFFF#32, 0xD0000000#32⟩, by simp [commandRows, reservedRows], rfl, ?_⟩
  apply BitVec.eq_of_getLsbD_eq
  intro i hi
  simp only [encode, formatZ, BitVec.getLsbD_and, BitVec.getLsbD_append]
  interval_cases i <;> simp

theorem reservedE (low : BitVec 28) : Statement (.reservedE low) := by
  refine ⟨⟨"RESERVED_E", 0xF0000000#32, 0xE0000000#32⟩, by simp [commandRows, reservedRows], rfl, ?_⟩
  apply BitVec.eq_of_getLsbD_eq
  intro i hi
  simp only [encode, BitVec.getLsbD_and, BitVec.getLsbD_append]
  interval_cases i <;> simp

theorem reservedF (low : BitVec 28) : Statement (.reservedF low) := by
  refine ⟨⟨"RESERVED_F", 0xF0000000#32, 0xF0000000#32⟩, by simp [commandRows, reservedRows], rfl, ?_⟩
  apply BitVec.eq_of_getLsbD_eq
  intro i hi
  simp only [encode, BitVec.getLsbD_and, BitVec.getLsbD_append]
  interval_cases i <;> simp

end Sys2Proof.Laws.EncodingFitsRow
end

