-- ==== Sys2Proof/Laws/Reach.lean ====
section
/-! SUPPORT. How far an instruction reaches: how it ends, what it records on the link, and what a sweep rests on. Each shared
operation is unfolded here once. -/

namespace Sys2Proof.Machine

/-! ## STATUS -/

/-- LAST is the code of the completion (60_exceptions.md R190). -/
theorem Status.last_record (c : Code) (st : BitVec 8) : Status.last (Status.record c st) = c.bits := by
  cases c <;> (apply BitVec.eq_of_getLsbD_eq; intro i hi; interval_cases i <;>
    simp [Status.record, Code.bits, Code.sticky, Status.last])

/-! ## How an instruction ends -/

/-- Every way an instruction can end: what it does to the responses, to STATUS and to the engine. -/
inductive Ending (i : Instr) (s t : State) : Prop
  /-- blocked on a row write that is never answered (43_transmit.md R156) -/
  | stalled (off : Option Nat) (row : Fin 8) (notRead : i ≠ .rdst) (responses : t.responses = s.responses)
      (status : t.status = s.status) (engine : t.engine = .executing off row)
  /-- RDST and RDCFG: a response, STATUS untouched (60_exceptions.md R190) -/
  | read (which : i = .rdst ∨ i = .rdcfg) (aux : BitVec 16) (data : BitVec 8)
      (responses : t.responses = s.responses ++ [responseWord .ok aux data]) (status : t.status = s.status)
      (engine : t.engine = s.engine)
  /-- CLRF: the sticky flags cleared, then a completion (45_system.md R176) -/
  | cleared (which : i = .clrf) (responses : t.responses = s.responses ++ [responseWord .ok 0#16 0#8])
      (status : t.status = Status.record .ok (Status.clearSticky s.status)) (engine : t.engine = s.engine)
  /-- every other completion (60_exceptions.md R190) -/
  | completed (notRdst : i ≠ .rdst) (notRdcfg : i ≠ .rdcfg) (notClrf : i ≠ .clrf) (code : Code) (aux : BitVec 16)
      (data : BitVec 8) (empty : code ≠ .ok → aux = 0#16 ∧ data = 0#8)
      (responses : t.responses = s.responses ++ [responseWord code aux data])
      (status : t.status = Status.record code s.status) (engine : t.engine = s.engine)

theorem Ending.of_raiseError (i : Instr) (s u : State) (h1 : i ≠ .rdst) (h2 : i ≠ .rdcfg) (h3 : i ≠ .clrf)
    (hr : u.responses = s.responses) (hs : u.status = s.status) (he : u.engine = s.engine) (c : Code) : Ending i s (u.raiseError c) := by
  rw [State.raiseError_eq]
  exact .completed h1 h2 h3 c 0#16 0#8 (fun _ => ⟨rfl, rfl⟩) (by simp [hr]) (by simp [hs]) he

theorem Ending.of_completeOk (i : Instr) (s u : State) (h1 : i ≠ .rdst) (h2 : i ≠ .rdcfg) (h3 : i ≠ .clrf)
    (hr : u.responses = s.responses) (hs : u.status = s.status) (he : u.engine = s.engine) : Ending i s u.completeOk :=
  Ending.of_raiseError i s u h1 h2 h3 hr hs he .ok

theorem Ending.of_finish (i : Instr) (s u : State) (h1 : i ≠ .rdst) (h2 : i ≠ .rdcfg) (h3 : i ≠ .clrf)
    (hr : u.responses = s.responses) (hs : u.status = s.status) (he : u.engine = s.engine) (off : Option Nat)
    (r : TxResult) : Ending i s (u.finish off r) := by
  cases r with
  | done => exact Ending.of_raiseError i s u h1 h2 h3 hr hs he .ok
  | failed => exact Ending.of_raiseError i s u h1 h2 h3 hr hs he .txFail
  | stalled row => exact .stalled off row h1 hr hs rfl

/-- Every effect ends in one of those ways. -/
theorem effect_ending (i : Instr) (s : State) : Ending i s (effect i s) := by
  cases i with
  | rdst => exact .read (.inl rfl) _ _ rfl rfl rfl
  | rdcfg => exact .read (.inr rfl) _ _ rfl rfl rfl
  | clrf => exact .cleared rfl rfl rfl rfl
  | rdhb row col =>
    simp only [effect]; split
    · exact Ending.of_raiseError _ s s (by simp) (by simp) (by simp) rfl rfl rfl .range
    · exact .completed (by simp) (by simp) (by simp) .ok _ _ (fun h => absurd rfl h) rfl rfl rfl
  | rdmb row col =>
    simp only [effect]; split
    · exact Ending.of_raiseError _ s s (by simp) (by simp) (by simp) rfl rfl rfl .range
    · exact .completed (by simp) (by simp) (by simp) .ok _ _ (fun h => absurd rfl h) rfl rfl rfl
  | newmsg w =>
    simp only [effect]; split
    · exact Ending.of_raiseError _ s s (by simp) (by simp) (by simp) rfl rfl rfl .range
    · exact Ending.of_completeOk _ s _ (by simp) (by simp) (by simp) rfl rfl rfl
  | ldmsg row col d =>
    simp only [effect]; split
    · exact Ending.of_raiseError _ s s (by simp) (by simp) (by simp) rfl rfl rfl .range
    · exact Ending.of_completeOk _ s _ (by simp) (by simp) (by simp) rfl rfl rfl
  | xmit => exact Ending.of_finish _ s s.transmit.1 (by simp) (by simp) (by simp) rfl rfl rfl _ _
  | display o =>
    simp only [effect]; split
    · exact Ending.of_completeOk _ s _ (by simp) (by simp) (by simp) rfl rfl rfl
    · exact Ending.of_finish _ s (s.composeAt o.toNat).transmit.1 (by simp) (by simp) (by simp) rfl rfl rfl _ _
  | scroll o =>
    simp only [effect]; split
    · exact Ending.of_completeOk _ s _ (by simp) (by simp) (by simp) rfl rfl rfl
    · exact Ending.of_finish _ s _ (by simp) (by simp) (by simp)
        (by rw [State.sweep_frame]) (by rw [State.sweep_frame]) (by rw [State.sweep_frame]) _ _
  | reservedE l => exact Ending.of_raiseError _ s s (by simp) (by simp) (by simp) rfl rfl rfl .illegal
  | reservedF l => exact Ending.of_raiseError _ s s (by simp) (by simp) (by simp) rfl rfl rfl .illegal
  | _ => exact Ending.of_completeOk _ s _ (by simp) (by simp) (by simp) rfl rfl rfl

/-! ## The link record -/

/-- A transmission appends to the record rows of the buffer as it stands, and where it stalls the last is the row it waits on. -/
theorem State.transmit_log (s : State) :
    ∃ ws, s.transmit.1.link.log = s.link.log ++ ws ∧ (∀ w ∈ ws, ∃ r, w.bytes = s.rowBytes r) ∧
      ∀ row, s.transmit.2 = .stalled row →
        s.transmit.1.link.log.getLast? = some { bytes := s.rowBytes row, answer := .never } := by
  rcases s.transmit_cases with h | ⟨row, h, hk⟩
  · rw [s.transmit_of_ok h]
    exact ⟨_, rfl, by simp [sentRow], by simp⟩
  · rw [s.transmit_of_stop row h hk]
    refine ⟨_, rfl, ?_, ?_⟩
    · intro w hw
      simp only [List.mem_append, List.mem_map, List.mem_singleton] at hw
      rcases hw with ⟨r, -, rfl⟩ | rfl
      · exact ⟨r, rfl⟩
      · exact ⟨row, rfl⟩
    · intro row' hr
      cases ha : s.link.answerAt row.val with
      | ok => exact absurd ha hk
      | error => simp [ha] at hr
      | never =>
        simp only [ha, resultAt_never, TxResult.stalled.injEq] at hr
        subst hr
        simp

/-- A sweep appends to the record composed rows, and where it stalls the last is the row it waits on. -/
theorem State.sweep_log (frames off : Nat) (s : State) :
    ∃ ws, (s.sweep frames off).1.link.log = s.link.log ++ ws ∧ (∀ w ∈ ws, ∃ o r, w.bytes = s.composedRow o r) ∧
      ∀ row, (s.sweep frames off).2.1 = .stalled row →
        (s.sweep frames off).1.link.log.getLast? =
          some { bytes := (s.sweep frames off).1.rowBytes row, answer := .never } := by
  induction frames generalizing off s with
  | zero => exact ⟨[], by simp [State.sweep], by simp, by simp [State.sweep]⟩
  | succ n ih =>
    obtain ⟨ws, h1, h2, h3⟩ := State.transmit_log (s.composeAt off)
    by_cases h : (s.composeAt off).transmit.2 = .done
    · rw [State.sweep_succ_of_done _ _ _ h]
      obtain ⟨ws', h1', h2', h3'⟩ := ih (off + 1) (s.composeAt off).transmit.1
      refine ⟨ws ++ ws', ?_, ?_, h3'⟩
      · rw [h1', h1, List.append_assoc]; rfl
      · intro w hw
        rcases List.mem_append.mp hw with hw | hw
        · obtain ⟨r, hr⟩ := h2 w hw
          exact ⟨off, r, by rw [hr, State.rowBytes_composeAt_eq]⟩
        · exact h2' w hw
    · rw [State.sweep_succ_of_stop _ _ _ h]
      refine ⟨ws, h1, ?_, h3⟩
      intro w hw
      obtain ⟨r, hr⟩ := h2 w hw
      exact ⟨off, r, by rw [hr, State.rowBytes_composeAt_eq]⟩

theorem State.finish_link (s : State) (off : Option Nat) (r : TxResult) : (s.finish off r).link = s.link := by rw [State.finish_frame]

/-- No instruction takes a row write back from the record. -/
theorem effect_log (i : Instr) (s : State) : ∃ ws, (effect i s).link.log = s.link.log ++ ws := by
  cases i with
  | xmit => obtain ⟨ws, h, -⟩ := State.transmit_log s; exact ⟨ws, by simp only [effect, State.finish_link]; exact h⟩
  | display o =>
    simp only [effect]; split
    · exact ⟨[], by simp⟩
    · obtain ⟨ws, h, -⟩ := State.transmit_log (s.composeAt o.toNat); exact ⟨ws, by rw [State.finish_link]; exact h⟩
  | scroll o =>
    simp only [effect]; split
    · exact ⟨[], by simp⟩
    · obtain ⟨ws, h, -⟩ := State.sweep_log (sweepFrames s.params s.w o.toNat) o.toNat s
      exact ⟨ws, by rw [State.finish_link]; exact h⟩
  | newmsg => refine ⟨[], ?_⟩; simp only [effect]; split <;> simp [State.blankMb]
  | ldmsg => refine ⟨[], ?_⟩; simp only [effect]; split <;> simp [State.writeMb]
  | rdhb => refine ⟨[], ?_⟩; simp only [effect]; split <;> simp
  | rdmb => refine ⟨[], ?_⟩; simp only [effect]; split <;> simp
  | reservedE => exact ⟨[], by simp [effect]⟩
  | reservedF => exact ⟨[], by simp [effect]⟩
  | plot => exact ⟨[], by simp [effect, State.writeHb]⟩
  | clear => exact ⟨[], by simp [effect, State.fillHb]⟩
  | compose => exact ⟨[], by simp [effect, State.composeAt, State.fillHb]⟩
  | _ => exact ⟨[], by simp [effect]⟩

/-- An accepted word has an effect, that of an illegal word being ILLEGAL (30_encoding.md R86). -/
theorem runWord_of_idle (cw : Word) (s : State) (hi : s.engine = .idle) :
    ∃ t, runWord cw s = .next t ∧ ∃ i, t = effect i s := by
  unfold runWord
  cases decode cw with
  | ok i => exact ⟨_, exec_of_idle i hi, i, rfl⟩
  | error e => exact ⟨_, whenIdle_idle _ _ hi, .reservedE 0#28, rfl⟩

/-! ## The sweep -/

theorem sweepFrames_pos (p : Params) (w : BitVec 16) (start : Nat) : 0 < sweepFrames p w start := by
  rw [sweepFrames_eq]
  omega

/-- Filling leaves every data byte written. -/
theorem State.isSome_fillHb (s : State) (f : Fin 8 → Nat → Byte) (r : Fin 8) (c : Nat) (hc : c < s.params.n) :
    ((s.fillHb f).hb.read? (hbAddr s.params r c)).isSome := by
  rw [s.read?_fillHb f r hc]; rfl

/-- A sweep of one frame or more leaves every data byte written. -/
theorem State.isSome_sweep (frames off : Nat) (s : State) (hpos : 0 < frames) (r : Fin 8) (c : Nat)
    (hc : c < s.params.n) : ((s.sweep frames off).1.hb.read? (hbAddr s.params r c)).isSome := by
  induction frames generalizing off s with
  | zero => omega
  | succ n ih =>
    by_cases h : (s.composeAt off).transmit.2 = .done
    · rw [State.sweep_succ_of_done _ _ _ h]
      rcases Nat.eq_zero_or_pos n with rfl | hn
      · exact State.isSome_fillHb s _ r c hc
      · exact ih (off + 1) (s.composeAt off).transmit.1 hn hc
    · rw [State.sweep_succ_of_stop _ _ _ h]
      exact State.isSome_fillHb s _ r c hc

/-- A sweep rests on the buffers, the width and the link alone. -/
theorem State.sweep_congr (frames off : Nat) (s t : State) (hp : t.params = s.params) (he : t.epoch = s.epoch)
    (hm : t.mb = s.mb) (hw : t.w = s.w) (hh : t.hb = s.hb) (hl : t.link = s.link) :
    (t.sweep frames off).1.hb = (s.sweep frames off).1.hb ∧
      (t.sweep frames off).1.link = (s.sweep frames off).1.link ∧ (t.sweep frames off).2 = (s.sweep frames off).2 := by
  induction frames generalizing off s t with
  | zero => exact ⟨hh, hl, rfl⟩
  | succ n ih =>
    have hc : (t.composeAt off).hb = (s.composeAt off).hb := by
      simp only [State.composeAt_eq, State.fillHb_eq, State.withHb_hb, hh, hp, State.splice_congr hp he hm hw]
    have hrb : (t.composeAt off).rowBytes = (s.composeAt off).rowBytes := State.rowBytes_congr hp he hc
    have hlk : (t.composeAt off).link = (s.composeAt off).link := hl
    have h2 : (t.composeAt off).transmit.2 = (s.composeAt off).transmit.2 := by simp only [State.transmit, hrb, hlk]
    have h1 : (t.composeAt off).transmit.1.link = (s.composeAt off).transmit.1.link := by
      simp only [State.transmit, hrb, hlk]
      rfl
    by_cases h : (s.composeAt off).transmit.2 = .done
    · rw [State.sweep_succ_of_done _ _ _ h, State.sweep_succ_of_done _ _ _ (h2.trans h)]
      exact ih _ _ _ hp he hm hw hc h1
    · rw [State.sweep_succ_of_stop _ _ _ h, State.sweep_succ_of_stop _ _ _ (by rw [h2]; exact h)]
      exact ⟨hc, h1, by simp only [h2]⟩

end Sys2Proof.Machine
end

