-- ==== Sys2Proof/Tests/Slice0.lean ====
section
/-! SUPPORT. Tests of the model against the worked values of the spec (95_test_vectors.md and the examples of 30 to 45), and for
every obligation with hypotheses a witness that they are met together. Expected values are the spec's, never the model's. -/

namespace Sys2Proof.Tests

open Sys2Proof.Machine

/-! ## Small states -/

/-- A newly constructed block of `n` segments and a message capacity of `wmax` columns. -/
def panel (n wmax : Nat) : State := State.construct ⟨n, wmax⟩

/-- The message of vectors S1, B3 and P4: `N = 1`, `WMAX = 4`, `W = 2`, every row `[AB CD]`. -/
def abcd : State :=
  { panel 1 4 with
    mb := allRows.flatMap fun r => [(mbAddr ⟨1, 4⟩ r 0, 0xAB#8), (mbAddr ⟨1, 4⟩ r 1, 0xCD#8)], w := 2#16 }

/-- A state whose link answers what the list says, then what the environment likes. -/
def answering (s : State) (answers : List LinkAnswer) : State := s.withLink { s.link with script := answers }

/-- `k` answers `ok`, then the rest. -/
def oks (k : Nat) (rest : List LinkAnswer) : List LinkAnswer := List.replicate k LinkAnswer.ok ++ rest

/-- The state an instruction leads to, where it leads to one. -/
def after (i : Instr) (s : State) : State :=
  match exec i s with
  | .next t => t
  | .fault _ => s
  | .refused _ => s

theorem exec_after (i : Instr) (s : State) (h : s.engine = .idle) : exec i s = .next (after i s) := by
  simp only [after, exec_of_idle i h]

/-- The state a step leads to, where it leads to one. -/
def stepped (s : State) : State :=
  match step s with
  | .next t => t
  | .fault _ => s
  | .refused _ => s

/-- The response word that came last. -/
def lastResponse (s : State) : Option Word := s.responses.getLast?

/-- The bytes of the row writes, in order. -/
def sent (s : State) : List (List Byte) := s.link.log.map RowWrite.bytes

/-- A block of `n` segments whose data bytes all hold `value`. -/
def filled (n : Nat) (value : Byte) : State := (panel n 4).fillHb fun _ _ => value

/-- A sweep of `abcd` that stalls in its third frame at row 2: the transient counters of R33 hold 2 and 2. -/
def blockedSweep : State := after (.scroll 0#24) (answering abcd (oks 18 [.never]))

/-! ## Well-formedness (30_encoding.md R87, R94): each check refuses an ill-formed term -/

theorem test_wf_reservedE : (Instr.reservedE 0#28).wellFormed = false := by decide
theorem test_wf_reservedF : (Instr.reservedF 0x1234567#28).wellFormed = false := by decide
theorem test_wf_clear : (AsmLine.clear 256).wellFormed = false := by decide
theorem test_wf_plot :
    (AsmLine.plot 65536 0 1).wellFormed = false ∧ (AsmLine.plot 0 256 1).wellFormed = false ∧
      (AsmLine.plot 0 0 2).wellFormed = false := by decide
theorem test_wf_ldmsg :
    (AsmLine.ldmsg 8 0 0).wellFormed = false ∧ (AsmLine.ldmsg 0 65536 0).wellFormed = false ∧
      (AsmLine.ldmsg 0 0 256).wellFormed = false := by decide
theorem test_wf_newmsg : (AsmLine.newmsg 65536).wellFormed = false := by decide
theorem test_wf_offsets :
    (AsmLine.compose 16777216).wellFormed = false ∧ (AsmLine.display 16777216).wellFormed = false ∧
      (AsmLine.scroll 16777216).wellFormed = false := by decide
theorem test_wf_reads :
    (AsmLine.rdhb 8 0).wellFormed = false ∧ (AsmLine.rdhb 0 65536).wellFormed = false ∧
      (AsmLine.rdmb 8 0).wellFormed = false ∧ (AsmLine.rdmb 0 65536).wellFormed = false := by decide
theorem test_wf_pseudo :
    (AsmLine.setpx 65536 0).wellFormed = false ∧ (AsmLine.clrpx 0 256).wellFormed = false ∧
      (AsmLine.glyph 65536 0 0 0 0 0 0 0 0).wellFormed = false ∧
      (AsmLine.glyph 0 0 0 0 0 0 0 0 256).wellFormed = false := by decide

/-- "An operand that does not fit its field is an assembly error, not a truncation" (R94). -/
theorem test_assembly_error : assembleLine (.clear 256) = none ∧ assembleLine (.rdhb 8 0) = none := by decide

/-- The program of P1, up to its second glyph's first row, assembles to the words printed there. -/
theorem test_assemble_p1 :
    assemble [.cls, .newmsg 2, .glyph 0 0x88 0x88 0x88 0xF8 0x88 0x88 0x88 0x00, .showFrame] =
      some [0x10000000#32, 0x40000200#32, 0x30000088#32, 0x31000088#32, 0x32000088#32, 0x330000F8#32, 0x34000088#32,
        0x35000088#32, 0x36000088#32, 0x37000000#32, 0x70000000#32] := by decide

/-- S8: a character with no glyph takes the space, and without a space nothing is sent. -/
theorem test_render_fallback :
    renderLines (fun ch => if ch = ' ' then some (Vector.replicate 8 0x00#8) else none) ['#'] =
        some [.newmsg 1, .glyph 0 0 0 0 0 0 0 0 0] ∧
      renderLines (fun _ => none) ['#'] = none := by decide

/-! ## Decoding: words written out from R82, R84 and the vectors of R94, B1, B2 and B6 -/

theorem test_decode_nop : decode 0x00000000#32 = .ok .nop ∧ (decode 0x00000001#32).toOption = none := by decide
theorem test_decode_clear :
    decode 0x100000A5#32 = .ok (.clear 0xA5#8) ∧ (decode 0x10000100#32).toOption = none := by decide
theorem test_decode_plot :
    decode 0x2100090A#32 = .ok (.plot 9#16 10#8 true) ∧ decode 0x20001902#32 = .ok (.plot 25#16 2#8 false) ∧
      (decode 0x22000000#32).toOption = none := by decide
theorem test_decode_ldmsg :
    decode 0x330001F8#32 = .ok (.ldmsg 3#3 1#16 0xF8#8) ∧ (decode 0x38000000#32).toOption = none := by decide
theorem test_decode_newmsg :
    decode 0x40004100#32 = .ok (.newmsg 65#16) ∧ (decode 0x40000001#32).toOption = none ∧
      (decode 0x48000000#32).toOption = none := by decide
theorem test_decode_compose :
    decode 0x50000004#32 = .ok (.compose 4#24) ∧ (decode 0x51000000#32).toOption = none := by decide
theorem test_decode_xmit : decode 0x60000000#32 = .ok .xmit ∧ (decode 0x60000001#32).toOption = none := by decide
theorem test_decode_display : decode 0x70000004#32 = .ok (.display 4#24) := by decide
theorem test_decode_scroll :
    decode 0x80000000#32 = .ok (.scroll 0#24) ∧ decode 0x80FFFFFF#32 = .ok (.scroll 16777215#24) := by decide
theorem test_decode_clrf : decode 0x90000000#32 = .ok .clrf := by decide
theorem test_decode_rdhb :
    decode 0xA7000500#32 = .ok (.rdhb 7#3 5#16) ∧ (decode 0xA0000001#32).toOption = none := by decide
theorem test_decode_rdmb : decode 0xB7003F00#32 = .ok (.rdmb 7#3 63#16) := by decide
theorem test_decode_rdst : decode 0xC0000000#32 = .ok .rdst ∧ (decode 0xC0000001#32).toOption = none := by decide
theorem test_decode_rdcfg : decode 0xD0000000#32 = .ok .rdcfg := by decide
theorem test_decode_reserved :
    decode 0xE0000000#32 = .ok (.reservedE 0#28) ∧ decode 0xF1234567#32 = .ok (.reservedF 0x1234567#28) ∧
      isCommand 0xE0000000#32 = false ∧ isCommand 0xF1234567#32 = false := by decide

/-- The table's numbering is the word's own (R81, R82); a word of another length is no instruction. -/
theorem test_decode_table_word :
    decodeTableWord 32 0x40000200 = some (.newmsg 2#16) ∧ decodeTableWord 64 0 = none := by decide

/-! ## One step of each instruction -/

/-- The example of R175 and B6 15: NOP overwrites LAST and keeps the sticky flag. -/
theorem test_nop :
    (after .nop ((panel 5 64).withStatus 0x22#8)).status = 0x02#8 ∧
      lastResponse (after .nop (panel 5 64)) = some 0x00000000#32 := by decide

/-- The example of R110. -/
theorem test_clear :
    (after (.clear 0xA5#8) (panel 2 4)).rowBytes 0 = [0xA5#8, 0xA5#8, 0x80#8] ∧
      (after (.clear 0xA5#8) (panel 2 4)).rowBytes 7 = [0xA5#8, 0xA5#8, 0x01#8] := by decide

/-- B1 5, 6 and 7: the coordinates wrap. -/
theorem test_plot_wraps :
    (after (.plot 16#16 8#8 true) (filled 2 0x00#8)).rowBytes 0 = [0x80#8, 0x00#8, 0x80#8] ∧
      (after (.plot 9#16 10#8 true) (filled 2 0x00#8)).rowBytes 2 = [0x00#8, 0x40#8, 0x20#8] ∧
      (after (.plot 65535#16 255#8 true) (filled 2 0x00#8)).rowBytes 7 = [0x00#8, 0x01#8, 0x01#8] := by decide

/-- B1 9: bit 4 of one byte is cleared. -/
theorem test_plot_clears :
    (after (.plot 3#16 1#8 false) (filled 2 0xFF#8)).rowBytes 1 = [0xEF#8, 0xFF#8, 0x40#8] := by decide

/-- B2 4 and 5: the last place of the buffer. -/
theorem test_ldmsg :
    lastResponse (after (.rdmb 7#3 63#16) (after (.ldmsg 7#3 63#16 0xAA#8) ((panel 5 64).withW 64#16))) =
      some 0x000000AA#32 := by decide

/-- B2 3 and 7: the first place beyond the message. -/
theorem test_ldmsg_range :
    lastResponse (after (.ldmsg 0#3 64#16 1#8) ((panel 5 64).withW 64#16)) = some 0x30000000#32 ∧
      (after (.ldmsg 0#3 0#16 1#8) (panel 5 64)).status = 0x32#8 := by decide

/-- B2 8: a fresh buffer is zero. -/
theorem test_newmsg :
    (after (.newmsg 2#16) abcd).mbByte 7 0 = 0x00#8 ∧ (after (.newmsg 2#16) abcd).mbByte 0 1 = 0x00#8 ∧
      (after (.newmsg 1#16) abcd).mbByte 0 1 = 0xCD#8 ∧ (after (.newmsg 1#16) abcd).w = 1#16 := by decide

/-- B2 1: beyond the capacity nothing changes. -/
theorem test_newmsg_range :
    lastResponse (after (.newmsg 65#16) (panel 5 64)) = some 0x30000000#32 ∧
      (after (.newmsg 65#16) (panel 5 64)).w = 0#16 := by decide

/-- The table of B3 (b): offsets 1, 7 and 12. -/
theorem test_compose :
    (after (.compose 1#24) abcd).hbByte 0 0 = 0x57#8 ∧ (after (.compose 7#24) abcd).hbByte 3 0 = 0xE6#8 ∧
      (after (.compose 12#24) abcd).hbByte 7 0 = 0xD0#8 := by decide

/-- B3 (d) and its last row: COMPOSE of an empty message, and far beyond a message, is blank. -/
theorem test_compose_blank :
    (after (.compose 0#24) (filled 2 0xFF#8)).rowBytes 0 = [0x00#8, 0x00#8, 0x80#8] ∧
      (after (.compose 16777215#24) abcd).hbByte 0 0 = 0x00#8 := by decide

/-- B4 (b): the fourth row write fails, the later rows are not sent. -/
theorem test_xmit_fails :
    sent (after .xmit (answering (filled 1 0x00#8) [.ok, .ok, .ok, .error])) =
        [[0x00#8, 0x80#8], [0x00#8, 0x40#8], [0x00#8, 0x20#8], [0x00#8, 0x10#8]] ∧
      lastResponse (after .xmit (answering (filled 1 0x00#8) [.ok, .ok, .ok, .error])) = some 0x10000000#32 ∧
      (after .xmit (answering (filled 1 0x00#8) [.ok, .ok, .ok, .error])).status = 0x11#8 := by decide

/-- B4 (e): the third row write is never answered. -/
theorem test_xmit_stalls :
    (after .xmit (answering (filled 1 0x00#8) [.ok, .ok, .never])).busy = true ∧
      lastResponse (after .xmit (answering (filled 1 0x00#8) [.ok, .ok, .never])) = none ∧
      (sent (after .xmit (answering (filled 1 0x00#8) [.ok, .ok, .never]))).length = 3 := by decide

/-- The example of R160. -/
theorem test_display :
    sent (after (.display 4#24) (answering abcd (oks 8 []))) =
      [[0xBC#8, 0x80#8], [0xBC#8, 0x40#8], [0xBC#8, 0x20#8], [0xBC#8, 0x10#8], [0xBC#8, 0x08#8], [0xBC#8, 0x04#8],
        [0xBC#8, 0x02#8], [0xBC#8, 0x01#8]] := by decide

/-- B5: an empty message sends nothing and leaves the buffer. -/
theorem test_display_empty :
    sent (after (.display 0#24) (filled 2 0xFF#8)) = [] ∧
      (after (.display 0#24) (filled 2 0xFF#8)).rowBytes 0 = [0xFF#8, 0xFF#8, 0x80#8] := by decide

/-- P4: the sweep fails at row 2 of its third frame, 19 row writes, `HB` holding the frame of offset 2 whole. -/
theorem test_scroll_fails :
    (sent (after (.scroll 0#24) (answering abcd (oks 18 [.error])))).length = 19 ∧
      (after (.scroll 0#24) (answering abcd (oks 18 [.error]))).hbByte 7 0 = 0xAF#8 ∧
      lastResponse (after (.scroll 0#24) (answering abcd (oks 18 [.error]))) =
        some 0x10000000#32 := by decide

/-- The example of R161: the first row of each of the eight frames, and the byte that is left. -/
theorem test_scroll_frames :
    (List.range 8).map (fun m => (sent (after (.scroll 0#24) (answering abcd (oks 64 []))))[8 * m]?) =
        [some [0xAB#8, 0x80#8], some [0x57#8, 0x80#8], some [0xAF#8, 0x80#8], some [0x5E#8, 0x80#8],
          some [0xBC#8, 0x80#8], some [0x79#8, 0x80#8], some [0xF3#8, 0x80#8], some [0xE6#8, 0x80#8]] := by decide

/-- The table of B5: the numbers of frames. -/
theorem test_sweep_frames :
    sweepFrames ⟨5, 64⟩ 2#16 7 = 1 ∧ sweepFrames ⟨1, 4⟩ 2#16 0 = 8 ∧ sweepFrames ⟨1, 4⟩ 2#16 3 = 5 ∧
      sweepFrames ⟨1, 4⟩ 2#16 8 = 1 ∧ sweepFrames ⟨1, 4⟩ 3#16 0 = 16 ∧ sweepFrames ⟨5, 64⟩ 10#16 39 = 1 ∧
      sweepFrames ⟨5, 64⟩ 10#16 0 = 40 := by decide

/-- The example of R176. -/
theorem test_clrf :
    (after .clrf ((panel 5 64).withStatus 0x11#8)).status = 0x00#8 ∧
      lastResponse (after .clrf ((panel 5 64).withStatus 0x11#8)) = some 0x00000000#32 := by decide

/-- B1 13 and 14: the row-select byte, and the column after it. -/
theorem test_rdhb :
    lastResponse (after (.rdhb 7#3 5#16) (panel 5 64)) = some 0x00000001#32 ∧
      lastResponse (after (.rdhb 0#3 6#16) (panel 5 64)) = some 0x30000000#32 := by decide

/-- The example of R122, and B2 6. -/
theorem test_rdmb :
    lastResponse (after (.rdmb 3#3 1#16) abcd) = some 0x000000CD#32 ∧
      lastResponse (after (.rdmb 0#3 2#16) abcd) = some 0x30000000#32 := by decide

/-- The example of R177: the response shows `W` and STATUS, and STATUS stays. -/
theorem test_rdst :
    lastResponse (after .rdst (abcd.withStatus 0x11#8)) = some 0x00000211#32 ∧
      (after .rdst (abcd.withStatus 0x11#8)).status = 0x11#8 := by decide

/-- The example of R179. -/
theorem test_rdcfg :
    lastResponse (after .rdcfg (panel 5 64)) = some 0x00004005#32 ∧
      (after .rdcfg ((panel 5 64).withStatus 0x22#8)).status = 0x22#8 := by decide

/-- B6 3 and 4. -/
theorem test_reserved :
    (after (.reservedE 0#28) (panel 5 64)).status = 0x22#8 ∧
      lastResponse (after (.reservedF 0x1234567#28) (panel 5 64)) = some 0x20000000#32 := by decide

/-- B6 14: an RDST with a must-be-zero bit is illegal and does update STATUS. -/
theorem test_step_illegal :
    (stepped ((panel 5 64).withFetchWord 32 0xC0000001)).status = 0x22#8 ∧
      lastResponse (stepped ((panel 5 64).withFetchWord 32 0xC0000001)) = some 0x20000000#32 := by decide

/-- R217: reset frees a blocked engine, with no response, and the row writes it issued stay issued. -/
theorem test_reset_ends_stall :
    (stepped (blockedSweep.withHost [.reset])).busy = false ∧
      lastResponse (stepped (blockedSweep.withHost [.reset])) = none ∧
      (sent (stepped (blockedSweep.withHost [.reset]))).length = 19 := by decide

/-- R217: reset while DISPLAY has issued three row writes: no response, the state of reset, three row writes. -/
theorem test_reset_cuts_display :
    (sent (stepped ((answering abcd (oks 8 [])).withHost [.commandThenReset 0x70000000#32 3]))).length = 3 ∧
      (stepped ((answering abcd (oks 8 [])).withHost [.commandThenReset 0x70000000#32 3])).w = 0#16 ∧
      lastResponse (stepped ((answering abcd (oks 8 [])).withHost [.commandThenReset 0x70000000#32 3])) =
        none := by decide

/-! ## Witnesses: the hypotheses of each obligation, met together -/

theorem witness_EncodeOfDecodeIsIdentity : decode 0x2100090A#32 = .ok (.plot 9#16 10#8 true) := by decide

theorem witness_CommandOfRowIffMaskMatches :
    (⟨"NEWMSG", 0xFF0000FF#32, 0x40000000#32⟩ : OpRow) ∈ commandRows ++ reservedRows ∧
      0x40000200#32 &&& 0xFF0000FF#32 = 0x40000000#32 ∧ 0x40000001#32 &&& 0xFF0000FF#32 ≠ 0x40000000#32 := by decide

theorem witness_StepRunsDecodedCommand :
    ((panel 5 64).withFetchWord 32 0x90000000).engine = .idle ∧
      ((panel 5 64).withFetchWord 32 0x90000000).host = .command 0x90000000#32 :: [] ∧
      decode 0x90000000#32 = .ok .clrf := by decide

theorem witness_IllegalWordCompletesIllegal :
    ((panel 5 64).withFetchWord 32 0x40000001).engine = .idle ∧
      ((panel 5 64).withFetchWord 32 0x40000001).host = .command 0x40000001#32 :: [] ∧
      (∀ row ∈ commandRows, 0x40000001#32 &&& row.mask ≠ row.pattern) ∧
      (∀ row ∈ commandRows, 0xF1234567#32 &&& row.mask ≠ row.pattern) := by decide

/-- The idle engine of ReservedOpcodesCompleteIllegal, EveryInstructionRuns, ClearFillsEveryDataByte, ComposeWritesSplice,
ComposeZeroIsIdentity, NopOnlyCompletes, RdstReturnsStatusAndWidth and RangeExactlyWhereNoPlaceExists. -/
theorem witness_idle_engine : abcd.engine = .idle := by decide

theorem witness_BusyEngineTakesNoCommand :
    (blockedSweep.withHost [.command 0x00000000#32]).engine = .executing (some 2) 2 ∧
      (blockedSweep.withHost [.command 0x00000000#32]).host = .command 0x00000000#32 :: [] := by decide

/-- PlotChangesOneByte, at the narrowest and the widest panel. -/
theorem witness_PlotChangesOneByte :
    (panel 1 1).params.wf ∧ (panel 1 1).engine = .idle ∧ (panel 255 65535).params.wf ∧
      (panel 255 65535).engine = .idle := by decide

/-- PlotSetsOnePixel, with the last pixel of the panel. -/
theorem witness_PlotSetsOnePixel :
    (filled 2 0x00#8).params.wf ∧
      exec (.plot 15#16 7#8 true) (filled 2 0x00#8) = .next (after (.plot 15#16 7#8 true) (filled 2 0x00#8)) ∧
      15 < (filled 2 0x00#8).params.columns := ⟨by decide, exec_after _ _ (by decide), by decide⟩

/-- RdhbReturnsByteOrRange: the row-select column and the first column beyond. -/
theorem witness_RdhbReturnsByteOrRange :
    (panel 5 64).engine = .idle ∧ ¬ ((5#16).toNat > (panel 5 64).params.n) ∧ (6#16).toNat > (panel 5 64).params.n := by decide

/-- NewmsgMakesBlankMessage: the capacity itself and one column more. -/
theorem witness_NewmsgMakesBlankMessage :
    (panel 5 64).engine = .idle ∧ (64#16).toNat ≤ (panel 5 64).params.wmax ∧ (65#16).toNat > (panel 5 64).params.wmax := by
  decide

/-- LdmsgStoresOneByte: the last live column and the first that is not. -/
theorem witness_LdmsgStoresOneByte :
    abcd.w.toNat ≤ abcd.params.wmax ∧ abcd.engine = .idle ∧ (1#16).toNat < abcd.w.toNat ∧
      (2#16).toNat ≥ abcd.w.toNat := by decide

/-- RdmbReturnsByteOrRange: the last live column and the first that is not. -/
theorem witness_RdmbReturnsByteOrRange :
    abcd.engine = .idle ∧ ¬ ((1#16).toNat ≥ abcd.w.toNat) ∧ (2#16).toNat ≥ abcd.w.toNat := by decide

theorem witness_GlyphRoundTrip :
    abcd.engine = .idle ∧ abcd.w.toNat ≤ abcd.params.wmax ∧ (1#16).toNat < abcd.w.toNat := by decide

/-- MessageByteStaysUntilWritten, with a store beside the byte. -/
theorem witness_MessageByteStaysUntilWritten :
    abcd.w.toNat ≤ abcd.params.wmax ∧ 1 < abcd.w.toNat ∧
      exec (.ldmsg 3#3 0#16 0xF8#8) abcd = .next (after (.ldmsg 3#3 0#16 0xF8#8) abcd) ∧
      (∀ w, Instr.ldmsg 3#3 0#16 0xF8#8 ≠ .newmsg w) ∧
      (∀ row col data, Instr.ldmsg 3#3 0#16 0xF8#8 = .ldmsg row col data → ¬ (rowIndex row = 3 ∧ col.toNat = 1)) := by
  refine ⟨by decide, by decide, exec_after _ _ (by decide), fun w => by simp, ?_⟩
  rintro row col data h ⟨-, hcol⟩
  injection h with _ h2 _
  rw [← h2] at hcol
  exact absurd hcol (by decide)

/-- MasksAreComplementary and MasksAreRedundant, at both ends. -/
theorem witness_mask_range : 0 ≤ 7 ∧ 7 ≤ 7 := by decide

/-- SpliceSlicesTheStream, at both ends of a byte. -/
theorem witness_SpliceSlicesTheStream : 0 ≤ 7 ∧ 7 ≤ 7 ∧ (abcd.splice 4 0 0).getLsbD (7 - 7) = false := by decide

/-- ComposedPanelShowsMessage: the last panel column, within the message at offset 8 and beyond it at offset 9. -/
theorem witness_ComposedPanelShowsMessage :
    exec (.compose 9#24) abcd = .next (after (.compose 9#24) abcd) ∧ 7 < abcd.params.columns ∧
      abcd.msgBits ≤ (9#24).toNat + 7 ∧ ¬ (abcd.msgBits ≤ (8#24).toNat + 7) :=
  ⟨exec_after _ _ (by decide), by decide, by decide, by decide⟩

/-- SuccessiveOffsetsShiftLeft, at the last offsets the field can hold. -/
theorem witness_SuccessiveOffsetsShiftLeft :
    abcd.params.wf ∧ (16777208#24).toNat = (16777207#24).toNat + 1 ∧ (16777215#24).toNat = (16777207#24).toNat + 8 ∧
      exec (.compose 16777207#24) abcd = .next (after (.compose 16777207#24) abcd) ∧
      exec (.compose 16777208#24) abcd = .next (after (.compose 16777208#24) abcd) ∧
      exec (.compose 16777215#24) abcd = .next (after (.compose 16777215#24) abcd) ∧
      0 + 1 < abcd.params.columns ∧ 0 + 1 < (panel 2 4).params.n :=
  ⟨by decide, by decide, by decide, exec_after _ _ (by decide), exec_after _ _ (by decide), exec_after _ _ (by decide),
    by decide, by decide⟩

theorem witness_ComposeIgnoresOldBuffer :
    exec (.compose 4#24) abcd = .next (after (.compose 4#24) abcd) ∧
      exec (.compose 4#24) { abcd with hb := (filled 1 0xFF#8).hb } =
        .next (after (.compose 4#24) { abcd with hb := (filled 1 0xFF#8).hb }) :=
  ⟨exec_after _ _ (by decide), exec_after _ _ (by decide)⟩

theorem witness_XmitSendsOneFrame :
    (answering abcd (oks 8 [])).engine = .idle ∧
      ∀ j < 8, (answering abcd (oks 8 [])).link.answerAt j = .ok := by decide

/-- XmitStopsAtFirstError, at the first row and at the last. -/
theorem witness_XmitStopsAtFirstError :
    (answering abcd [.error]).engine = .idle ∧
      (∀ j < (0 : Fin 8).val, (answering abcd [.error]).link.answerAt j = .ok) ∧
      (answering abcd [.error]).link.answerAt (0 : Fin 8).val = .error ∧
      (∀ j < (7 : Fin 8).val, (answering abcd (oks 7 [.error])).link.answerAt j = .ok) ∧
      (answering abcd (oks 7 [.error])).link.answerAt (7 : Fin 8).val = .error := by decide

/-- XmitStallsAtUnansweredRow, at the third row (B4 (e)). -/
theorem witness_XmitStallsAtUnansweredRow :
    (answering abcd [.ok, .ok, .never]).engine = .idle ∧
      (∀ j < (2 : Fin 8).val, (answering abcd [.ok, .ok, .never]).link.answerAt j = .ok) ∧
      (answering abcd [.ok, .ok, .never]).link.answerAt (2 : Fin 8).val = .never := by decide

/-- OnlyResetEndsAStall, with a host that does nothing and with one that presents a command. -/
theorem witness_OnlyResetEndsAStall :
    blockedSweep.busy = true ∧ blockedSweep.host = [] ∧
      (blockedSweep.withHost [.command 0x00000000#32]).busy = true ∧
      (blockedSweep.withHost [.command 0x00000000#32]).host = .command 0x00000000#32 :: [] := by decide

theorem witness_FailedFrameReachesDeviceInPart :
    exec .xmit (answering (filled 1 0x00#8) [.ok, .error]) =
        .next (after .xmit (answering (filled 1 0x00#8) [.ok, .error])) ∧
      (∀ j < (1 : Fin 8).val, (answering (filled 1 0x00#8) [.ok, .error]).link.answerAt j = .ok) ∧
      (answering (filled 1 0x00#8) [.ok, .error]).link.answerAt (1 : Fin 8).val = .error :=
  ⟨exec_after _ _ (by decide), by decide, by decide⟩

/-- OnlyTransmittersIssueRowWrites and OnlyFiveCommandsWriteHb, with a command outside their lists. -/
theorem witness_OnlyTransmittersIssueRowWrites :
    exec (.newmsg 2#16) abcd = .next (after (.newmsg 2#16) abcd) ∧ Instr.newmsg 2#16 ≠ .xmit ∧
      (∀ o, Instr.newmsg 2#16 ≠ .display o) ∧ (∀ o, Instr.newmsg 2#16 ≠ .scroll o) ∧ (∀ v, Instr.newmsg 2#16 ≠ .clear v) ∧
      (∀ c r o, Instr.newmsg 2#16 ≠ .plot c r o) ∧ (∀ o, Instr.newmsg 2#16 ≠ .compose o) ∧ abcd.host = [] :=
  ⟨exec_after _ _ (by decide), by simp, by simp, by simp, by simp, by simp, by simp, by decide⟩

theorem witness_DisplayComposesThenSends :
    (answering abcd (oks 8 [])).engine = .idle ∧ (answering abcd (oks 8 [])).w ≠ 0#16 ∧
      ∀ j < 8, (answering abcd (oks 8 [])).link.answerAt j = .ok := by decide

theorem witness_DisplayIsComposeThenXmit : abcd.engine = .idle ∧ abcd.w ≠ 0#16 := by decide

theorem witness_EmptyMessageSendsNothing : (filled 2 0xFF#8).engine = .idle ∧ (filled 2 0xFF#8).w = 0#16 := by decide

theorem witness_DisplayFailureKeepsFrame :
    (answering abcd [.ok, .ok, .error]).engine = .idle ∧ (answering abcd [.ok, .ok, .error]).w ≠ 0#16 ∧
      (∀ j < (2 : Fin 8).val, (answering abcd [.ok, .ok, .error]).link.answerAt j = .ok) ∧
      (answering abcd [.ok, .ok, .error]).link.answerAt (2 : Fin 8).val = .error := by decide

/-- ScrollSendsEveryFrame: eight frames from offset 0, and one frame from the bound on. -/
theorem witness_ScrollSendsEveryFrame :
    (answering abcd (oks 64 [])).engine = .idle ∧ (answering abcd (oks 64 [])).w ≠ 0#16 ∧
      (∀ j < 8 * max 1 (8 * abcd.w.toNat - 8 * abcd.params.n - (0#24).toNat),
        (answering abcd (oks 64 [])).link.answerAt j = .ok) ∧
      (∀ j < 8 * max 1 (8 * abcd.w.toNat - 8 * abcd.params.n - (8#24).toNat),
        (answering abcd (oks 64 [])).link.answerAt j = .ok) := by decide

theorem witness_SweepOffsetsFitTheField : (⟨1, 1⟩ : Params).wf ∧ (⟨255, 65535⟩ : Params).wf := by decide

/-- ScrollStopsAtFirstError: P4, and a failure of the very first row write. -/
theorem witness_ScrollStopsAtFirstError :
    (answering abcd (oks 18 [.error])).engine = .idle ∧
      (answering abcd (oks 18 [.error])).w ≠ 0#16 ∧
      2 < max 1 (8 * abcd.w.toNat - 8 * abcd.params.n - (0#24).toNat) ∧
      (∀ j < 8 * 2 + (2 : Fin 8).val, (answering abcd (oks 18 [.error])).link.answerAt j = .ok) ∧
      (answering abcd (oks 18 [.error])).link.answerAt (8 * 2 + (2 : Fin 8).val) = .error ∧
      0 < max 1 (8 * abcd.w.toNat - 8 * abcd.params.n - (8#24).toNat) ∧
      (answering abcd [.error]).link.answerAt (8 * 0 + (0 : Fin 8).val) = .error := by decide

theorem witness_ScrollStallKeepsCounters :
    (answering abcd (oks 18 [.never])).engine = .idle ∧
      (answering abcd (oks 18 [.never])).w ≠ 0#16 ∧
      2 < max 1 (8 * abcd.w.toNat - 8 * abcd.params.n - (0#24).toNat) ∧
      (∀ j < 8 * 2 + (2 : Fin 8).val, (answering abcd (oks 18 [.never])).link.answerAt j = .ok) ∧
      (answering abcd (oks 18 [.never])).link.answerAt (8 * 2 + (2 : Fin 8).val) = .never := by decide

theorem witness_ScrollEqualsDisplaySequence : abcd.params.wf ∧ abcd.engine = .idle ∧ abcd.w ≠ 0#16 := by decide

theorem witness_ClrfZeroesStatus :
    ((panel 5 64).withStatus 0x11#8).engine = .idle ∧ ((panel 5 64).withStatus 0x11#8).status.extractLsb' 2 2 = 0#2 := by
  decide

theorem witness_RdcfgReturnsParameters :
    (panel 255 65535).params.wf ∧ (panel 255 65535).engine = .idle ∧ (panel 1 1).params.wf ∧ (panel 1 1).engine = .idle := by
  decide

theorem witness_SystemCommandsTouchNoBuffer : exec .rdst abcd = .next (after .rdst abcd) :=
  exec_after _ _ (by decide)

/-- OneResponsePerCompletion: a command that completes, and one that blocks. -/
theorem witness_OneResponsePerCompletion :
    exec (.clear 0xA5#8) abcd = .next (after (.clear 0xA5#8) abcd) ∧ (after (.clear 0xA5#8) abcd).busy = false ∧
      exec .xmit (answering (filled 1 0x00#8) [.ok, .ok, .never]) =
        .next (after .xmit (answering (filled 1 0x00#8) [.ok, .ok, .never])) ∧
      (after .xmit (answering (filled 1 0x00#8) [.ok, .ok, .never])).busy = true :=
  ⟨exec_after _ _ (by decide), by decide, exec_after _ _ (by decide), by decide⟩

theorem witness_FlagsAffectNoEffect :
    exec (.ldmsg 3#3 1#16 0xF8#8) abcd = .next (after (.ldmsg 3#3 1#16 0xF8#8) abcd) ∧
      exec (.ldmsg 3#3 1#16 0xF8#8) { abcd with status := 0x33#8 } =
        .next (after (.ldmsg 3#3 1#16 0xF8#8) { abcd with status := 0x33#8 }) :=
  ⟨exec_after _ _ (by decide), exec_after _ _ (by decide)⟩

/-- OnlyMessageCommandsWriteMessage, with a command that writes neither. -/
theorem witness_OnlyMessageCommandsWriteMessage :
    exec (.compose 4#24) abcd = .next (after (.compose 4#24) abcd) ∧ (∀ w, Instr.compose 4#24 ≠ .newmsg w) ∧
      (∀ r c d, Instr.compose 4#24 ≠ .ldmsg r c d) := ⟨exec_after _ _ (by decide), by simp, by simp⟩

theorem witness_UnwrittenBytesAreStable :
    0 < abcd.params.n ∧ exec .nop abcd = .next (after .nop abcd) ∧
      (after .nop abcd).hb.read? (hbAddr abcd.params 0 0) = none :=
  ⟨by decide, exec_after _ _ (by decide), by decide⟩

theorem witness_NothingUnspecifiedRemains :
    exec (.display 4#24) (answering abcd (oks 8 [])) =
        .next (after (.display 4#24) (answering abcd (oks 8 []))) ∧
      (answering abcd (oks 8 [])).w ≠ 0#16 ∧
      exec (.compose 4#24) abcd = .next (after (.compose 4#24) abcd) :=
  ⟨exec_after _ _ (by decide), by decide, exec_after _ _ (by decide)⟩

/-- EveryStepKeepsInvariant: a blocked sweep, its buffers written and its record not empty, satisfies the invariant and steps. -/
theorem witness_EveryStepKeepsInvariant :
    (blockedSweep.withHost [.reset]).Inv ∧
      step (blockedSweep.withHost [.reset]) = .next (stepped (blockedSweep.withHost [.reset])) := by
  have hengine : (blockedSweep.withHost [.reset]).engine = .executing (some 2) 2 := by decide
  refine ⟨?_, rfl⟩
  constructor
  · decide
  · decide
  · decide
  · decide
  · decide
  · decide
  · have hw : (blockedSweep.withHost [.reset]).w.toNat = 2 := by decide
    rw [hw]
    decide
  · decide
  · exact ⟨.ok, by decide⟩
  · decide
  · have h : (blockedSweep.withHost [.reset]).responses = [] := by decide
    intro rw hmem
    rw [h] at hmem
    exact absurd hmem List.not_mem_nil
  · intro off row h
    rw [hengine] at h
    injection h with h1 h2
    subst h1 h2
    decide
  · intro off row h
    rw [hengine] at h
    injection h with h1 h2
    injection h1 with h1
    omega

theorem witness_ConstructedBlockSatisfiesInvariant : (⟨1, 1⟩ : Params).wf ∧ (⟨255, 65535⟩ : Params).wf := by decide

theorem witness_ResetEndsAnyCommand : (blockedSweep.withHost [.reset]).host = .reset :: [] := by decide

theorem witness_CutCommandLeavesResetState :
    ((answering abcd (oks 8 [])).withHost [.commandThenReset 0x70000000#32 3]).engine = .idle ∧
      ((answering abcd (oks 8 [])).withHost [.commandThenReset 0x70000000#32 3]).host =
        .commandThenReset 0x70000000#32 3 :: [] := by decide

/-! ## The harness's two definitions -/

/-- A word stored where the step takes its next one, at the machine after reset, is the instruction the step runs. -/
theorem test_withFetchWord_runs :
    step (State.reset.withFetchWord 32 0x100000A5) = exec (.clear 0xA5#8) State.reset := rfl

/-- A blocked engine takes no word, so the word is presented to an idle one. -/
theorem test_withFetchWord_idle : (blockedSweep.withFetchWord 32 0xC0000000).engine = .idle := by decide

end Sys2Proof.Tests
end

section
/-! PROOFS. Each operation of the block keeps the invariant `State.Inv`; from these, every effect and every step does. -/

namespace Sys2Proof.Machine

/-! ## What the invariant asks of one row write and of one response -/

/-- A row write as the invariant asks: `N+1` bytes, the last a row-select byte (20_memory.md R53, R54). -/
def RowWrite.IsRow (p : Params) (write : RowWrite) : Prop :=
  write.bytes.length = p.n + 1 ∧ ∃ r, write.bytes.getLast? = some (rowSelect r)

/-- A response word that 30_encoding.md R92 allows. -/
def ResponseAllowed (rw : Word) : Prop :=
  ∃ code aux data, rw = responseWord code aux data ∧ (code ≠ .ok → aux = 0#16 ∧ data = 0#8)

theorem State.Inv.log_isRow {s : State} (h : s.Inv) : ∀ write ∈ s.link.log, write.IsRow s.params := h.log_rows

theorem State.Inv.responses_allowed {s : State} (h : s.Inv) : ∀ rw ∈ s.responses, ResponseAllowed rw := h.responses_wf

theorem State.rowBytes_isRow (s : State) (r : Fin 8) (a : LinkAnswer) :
    RowWrite.IsRow s.params { bytes := s.rowBytes r, answer := a } :=
  ⟨by simp [State.rowBytes], r, by simp [State.rowBytes_eq]⟩

/-! ## STATUS -/

/-- A completion does not write the reserved bits (10_state.md R30). -/
theorem Status.reserved_record (code : Code) (st : BitVec 8) :
    (Status.record code st).extractLsb' 2 2 = st.extractLsb' 2 2 := by
  apply BitVec.eq_of_getLsbD_eq
  intro i hi
  cases code <;> interval_cases i <;> simp [Status.record, Code.bits, Code.sticky]

/-- CLRF does not write the reserved bits (10_state.md R30). -/
theorem Status.reserved_clearSticky (st : BitVec 8) :
    (Status.clearSticky st).extractLsb' 2 2 = st.extractLsb' 2 2 := by
  apply BitVec.eq_of_getLsbD_eq
  intro i hi
  interval_cases i <;> simp [Status.clearSticky]

/-- CLRF itself does not write LAST; its completion does. -/
theorem Status.last_clearSticky (st : BitVec 8) : Status.last (Status.clearSticky st) = Status.last st := by
  apply BitVec.eq_of_getLsbD_eq
  intro i hi
  interval_cases i <;> simp [Status.clearSticky, Status.last]

/-- The reserved bits are zero after reset (10_state.md R37). -/
theorem Status.reserved_zero : (0#8).extractLsb' 2 2 = 0#2 := by decide

/-- LAST is OK after reset (10_state.md R37). -/
theorem Status.last_zero : Status.last 0#8 = Code.ok.bits := by decide

/-! ## One field written

`HB` and the link are written while the engine is idle: a blocked engine waits on the last recorded write of the buffer as
it stands. -/

namespace State.Inv

variable {s : State}

theorem withHost (h : s.Inv) (host : List HostInput) : (s.withHost host).Inv where
  __ := h

theorem withStatus (h : s.Inv) {st : BitVec 8} (hreserved : st.extractLsb' 2 2 = 0#2)
    (hlast : ∃ code : Code, Status.last st = code.bits) : (s.withStatus st).Inv where
  __ := h
  status_reserved := hreserved
  status_last := hlast

theorem respond (h : s.Inv) {rw : Word} (hrw : ResponseAllowed rw) : (s.respond rw).Inv where
  __ := h
  responses_wf := by
    intro rw' hmem
    rcases List.mem_append.mp hmem with hold | hnew
    · exact h.responses_allowed rw' hold
    · exact List.mem_singleton.mp hnew ▸ hrw

theorem withHb (h : s.Inv) (hidle : s.engine = .idle) {m : Memory} (hwf : m.wf)
    (hcells : ∀ a ∈ m.map Prod.fst, ∃ r c, c < s.params.n ∧ a = hbAddr s.params r c) : (s.withHb m).Inv where
  __ := h
  hb_wf := hwf
  hb_cells := hcells
  blocked off row hexec := by simp [hidle] at hexec

/-- The message memory and its width are written together, as NEWMSG does. -/
theorem withMessage (h : s.Inv) {m : Memory} {w : BitVec 16} (hwf : m.wf)
    (hcells : ∀ a ∈ m.map Prod.fst, ∃ r j, j < s.params.wmax ∧ a = mbAddr s.params r j)
    (hw : w.toNat ≤ s.params.wmax) (hlive : ∀ r j, j < w.toNat → (m.read? (mbAddr s.params r j)).isSome) :
    ((s.withMb m).withW w).Inv where
  __ := h
  mb_wf := hwf
  mb_cells := hcells
  w_le := hw
  mb_live := hlive

theorem withLink (h : s.Inv) (hidle : s.engine = .idle) {l : Link} (hlog : ∀ write ∈ l.log, write.IsRow s.params) :
    (s.withLink l).Inv where
  __ := h
  log_rows := hlog
  blocked off row hexec := by simp [hidle] at hexec

theorem withExecuting (h : s.Inv) {off : Option Nat} {row : Fin 8}
    (hlast : s.link.log.getLast? = some { bytes := s.rowBytes row, answer := .never })
    (hoff : ∀ o ∈ off, o < 2 ^ 24) : (s.withEngine (.executing off row)).Inv where
  __ := h
  blocked off' row' hexec := by
    obtain ⟨-, rfl⟩ := Engine.executing.inj hexec
    exact hlast
  off_lt off' row' hexec := hoff off' (Engine.executing.inj hexec).1

/-! ## Completion -/

theorem record (h : s.Inv) (code : Code) : (s.withStatus (Status.record code s.status)).Inv :=
  h.withStatus ((Status.reserved_record code _).trans h.status_reserved) ⟨code, Status.last_record code _⟩

theorem raiseError (h : s.Inv) (code : Code) : (s.raiseError code).Inv := by
  rw [State.raiseError_eq]
  exact (h.record code).respond ⟨code, 0#16, 0#8, rfl, fun _ => ⟨rfl, rfl⟩⟩

theorem completeOk (h : s.Inv) : s.completeOk.Inv := h.raiseError .ok

theorem completeRead (h : s.Inv) (aux : BitVec 16) (data : BitVec 8) : (s.completeRead aux data).Inv :=
  h.respond ⟨.ok, aux, data, rfl, fun hne => absurd rfl hne⟩

theorem complete_ok (h : s.Inv) (aux : BitVec 16) (data : BitVec 8) : (s.complete .ok aux data).Inv :=
  (h.record .ok).completeRead aux data

theorem clearSticky (h : s.Inv) : (s.withStatus (Status.clearSticky s.status)).Inv := by
  refine h.withStatus ((Status.reserved_clearSticky _).trans h.status_reserved) ?_
  rw [Status.last_clearSticky]
  exact h.status_last

/-! ## The buffer updates -/

theorem fillHb (h : s.Inv) (hidle : s.engine = .idle) (f : Fin 8 → Nat → Byte) : (s.fillHb f).Inv := by
  refine h.withHb hidle (Memory.wf_writeAll _ _ h.hb_wf) fun a ha => ?_
  rcases (Memory.mem_addrs_writeAll _ _ _).mp ha with hnew | hold
  · obtain ⟨cell, hcell, rfl⟩ := List.mem_map.mp hnew
    obtain ⟨r, c, hc, rfl⟩ := (mem_gridCells _ _ _ _).mp hcell
    exact ⟨r, c, hc, rfl⟩
  · exact h.hb_cells a hold

theorem composeAt (h : s.Inv) (hidle : s.engine = .idle) (offset : Nat) : (s.composeAt offset).Inv :=
  h.fillHb hidle _

theorem writeHb (h : s.Inv) (hidle : s.engine = .idle) (r : Fin 8) {c : Nat} (v : Byte) (hc : c < s.params.n) :
    (s.writeHb r c v).Inv := by
  refine h.withHb hidle (Memory.wf_write _ _ _ h.hb_wf) fun a ha => ?_
  rcases (Memory.mem_addrs_write _ _ _ _).mp ha with rfl | hold
  · exact ⟨r, c, hc, rfl⟩
  · exact h.hb_cells a hold

/-- LDMSG's store leaves every live byte written. -/
theorem writeMb (h : s.Inv) (r : Fin 8) {j : Nat} (v : Byte) (hj : j < s.w.toNat) : (s.writeMb r j v).Inv := by
  have hlisted := Memory.mem_addrs_write s.mb (mbAddr s.params r j)
  refine h.withMessage (Memory.wf_write _ _ _ h.mb_wf) (fun a ha => ?_) h.w_le fun r' j' hj' => ?_
  · rcases (hlisted a v).mp ha with rfl | hold
    · exact ⟨r, j, hj.trans_le h.w_le, rfl⟩
    · exact h.mb_cells a hold
  · rw [Memory.read?_isSome_iff]
    exact (hlisted _ v).mpr (.inr ((Memory.read?_isSome_iff _ _).mp (h.mb_live r' j' hj')))

/-- NEWMSG writes exactly the columns it makes live. -/
theorem blankMb (h : s.Inv) {w : BitVec 16} (hw : w.toNat ≤ s.params.wmax) : ((s.blankMb w.toNat).withW w).Inv := by
  refine h.withMessage (Memory.wf_writeAll _ _ h.mb_wf) (fun a ha => ?_) hw fun r j hj => ?_
  · rcases (Memory.mem_addrs_writeAll _ _ _).mp ha with hnew | hold
    · obtain ⟨cell, hcell, rfl⟩ := List.mem_map.mp hnew
      obtain ⟨r, j, hj, rfl⟩ := (mem_gridCells _ _ _ _).mp hcell
      exact ⟨r, j, hj.trans_le hw, rfl⟩
    · exact h.mb_cells a hold
  · exact Option.isSome_of_mem (s.read?_blankMb r hj)

/-! ## The transmitter and the sweep -/

theorem transmit (h : s.Inv) (hidle : s.engine = .idle) : s.transmit.1.Inv := by
  obtain ⟨ws, hlog, hrows, -⟩ := s.transmit_log
  refine h.withLink hidle fun write hmem => ?_
  rw [show (s.link.sendRows s.rowBytes allRows).1.log = s.link.log ++ ws from hlog] at hmem
  rcases List.mem_append.mp hmem with hold | hnew
  · exact h.log_isRow write hold
  · obtain ⟨r, hr⟩ := hrows write hnew
    have hrow := s.rowBytes_isRow r write.answer
    rwa [← hr] at hrow

/-- Every frame of a sweep is one composition and one transmission. -/
theorem sweep (h : s.Inv) (hidle : s.engine = .idle) (frames off : Nat) : (s.sweep frames off).1.Inv := by
  induction frames generalizing off s with
  | zero => exact h
  | succ frames ih =>
    have hsent : (s.composeAt off).transmit.1.Inv := (h.composeAt hidle off).transmit hidle
    by_cases hdone : (s.composeAt off).transmit.2 = .done
    · rw [State.sweep_succ_of_done _ _ _ hdone]
      exact ih hsent hidle (off + 1)
    · rw [State.sweep_succ_of_stop _ _ _ hdone]
      exact hsent

/-- A command that transmitted keeps the invariant where a stall waits on the last row write and its counter fits. -/
theorem finish (h : s.Inv) {off : Option Nat} {result : TxResult}
    (hstall : ∀ row, result = .stalled row →
      s.link.log.getLast? = some { bytes := s.rowBytes row, answer := .never } ∧ ∀ o ∈ off, o < 2 ^ 24) :
    (s.finish off result).Inv := by
  cases result with
  | done => exact h.completeOk
  | failed => exact h.raiseError .txFail
  | stalled row =>
    obtain ⟨hlast, hoff⟩ := hstall row rfl
    exact h.withExecuting hlast hoff

/-- XMIT, and DISPLAY after its composition. -/
theorem finish_transmit (h : s.Inv) (hidle : s.engine = .idle) : (s.transmit.1.finish none s.transmit.2).Inv := by
  obtain ⟨_, -, -, hlast⟩ := s.transmit_log
  exact (h.transmit hidle).finish fun row hrow => ⟨hlast row hrow, by simp⟩

end State.Inv

/-- A sweep that stalls does so at the offset of one of its frames. -/
theorem State.sweep_off_lt_of_stalled (s : State) (frames off : Nat) {row : Fin 8}
    (h : (s.sweep frames off).2.1 = .stalled row) : (s.sweep frames off).2.2 < off + frames := by
  rcases s.sweep_cases frames with hok | ⟨m, row', hm, hbefore, hstop⟩
  · obtain ⟨t, hsweep, -⟩ := s.sweep_of_ok frames off hok
    simp [hsweep] at h
  · obtain ⟨t, hsweep, -⟩ := s.sweep_of_stop frames off m row' hm hbefore hstop
    rw [hsweep]
    exact Nat.add_lt_add_left hm off

/-- The frames of a sweep end within the offset field (44_display_scroll.md R161, R164). -/
theorem add_sweepFrames_le (p : Params) (w : BitVec 16) (start : BitVec 24) :
    start.toNat + sweepFrames p w start.toNat ≤ 2 ^ 24 := by
  have hstart := start.isLt
  have hw := w.isLt
  rw [sweepFrames_eq]
  omega

theorem State.Inv.finish_sweep {s : State} (h : s.Inv) (hidle : s.engine = .idle) {frames off : Nat}
    (hfit : off + frames ≤ 2 ^ 24) :
    ((s.sweep frames off).1.finish (some (s.sweep frames off).2.2) (s.sweep frames off).2.1).Inv := by
  obtain ⟨_, -, -, hlast⟩ := s.sweep_log frames off
  refine (h.sweep hidle frames off).finish fun row hrow => ⟨hlast row hrow, fun o ho => ?_⟩
  obtain rfl := Option.mem_some.mp ho
  exact (s.sweep_off_lt_of_stalled frames off hrow).trans_le hfit

/-! ## Every effect -/

/-- PLOT's wrapped column lies in a data segment (40_buffer_ops.md R111). -/
theorem segmentOf_plotColumn_lt {p : Params} (hp : p.wf) (col : BitVec 16) : segmentOf (plotColumn p col) < p.n := by
  obtain ⟨hn, -⟩ := hp
  have hx : col.toNat % (8 * p.n) < 8 * p.n := Nat.mod_lt _ (by omega)
  exact Nat.div_lt_of_lt_mul hx

/-- From an idle engine every instruction keeps the invariant. -/
theorem State.Inv.effect {s : State} (h : s.Inv) (hidle : s.engine = .idle) (i : Instr) : (effect i s).Inv := by
  cases i with
  | nop => exact h.completeOk
  | clear value => exact (h.fillHb hidle _).completeOk
  | plot col row isOn => exact (h.writeHb hidle _ _ (segmentOf_plotColumn_lt h.params_wf col)).completeOk
  | ldmsg row col data =>
    simp only [Machine.effect]; split
    · exact h.raiseError .range
    · next hlive => exact (h.writeMb _ data (Nat.lt_of_not_le hlive)).completeOk
  | newmsg w =>
    simp only [Machine.effect]; split
    · exact h.raiseError .range
    · next hfits => exact (h.blankMb (Nat.le_of_not_lt hfits)).completeOk
  | compose offset => exact (h.composeAt hidle _).completeOk
  | xmit => exact h.finish_transmit hidle
  | display offset =>
    simp only [Machine.effect]; split
    · exact h.completeOk
    · exact (h.composeAt hidle _).finish_transmit hidle
  | scroll start =>
    simp only [Machine.effect]; split
    · exact h.completeOk
    · exact h.finish_sweep hidle (add_sweepFrames_le _ _ start)
  | clrf => exact h.clearSticky.completeOk
  | rdhb row col =>
    simp only [Machine.effect]; split
    · exact h.raiseError .range
    · exact h.complete_ok _ _
  | rdmb row col =>
    simp only [Machine.effect]; split
    · exact h.raiseError .range
    · exact h.complete_ok _ _
  | rdst => exact h.completeRead _ _
  | rdcfg => exact h.completeRead _ _
  | reservedE low => exact h.raiseError .illegal
  | reservedF low => exact h.raiseError .illegal

theorem State.finish_params (s : State) (off : Option Nat) (r : TxResult) : (s.finish off r).params = s.params := by
  rw [State.finish_frame]

theorem State.sweep_params (s : State) (frames off : Nat) : (s.sweep frames off).1.params = s.params := by
  rw [State.sweep_frame]

/-- No instruction changes the parameters (00_scope.md R5). -/
theorem effect_params (i : Instr) (s : State) : (effect i s).params = s.params := by
  cases i with
  | xmit => exact State.finish_params _ _ _
  | display offset =>
    simp only [effect]; split
    · rfl
    · exact State.finish_params _ _ _
  | scroll start =>
    simp only [effect]; split
    · rfl
    · exact (State.finish_params _ _ _).trans (State.sweep_params _ _ _)
  | ldmsg => simp only [effect]; split <;> rfl
  | newmsg => simp only [effect]; split <;> rfl
  | rdhb => simp only [effect]; split <;> rfl
  | rdmb => simp only [effect]; split <;> rfl
  | _ => rfl

/-! ## Reset -/

/-- A constructed block, whatever it is given of the records and the environment, as reset gives it (70_reset_and_hazards.md
R216). -/
theorem State.inv_constructWith {p : Params} (hp : p.wf) (epoch : Nat) {l : Link} {rws : List Word}
    (host : List HostInput) (hlog : ∀ write ∈ l.log, write.IsRow p) (hrws : ∀ rw ∈ rws, ResponseAllowed rw) :
    State.Inv { State.construct p with epoch := epoch, link := l, responses := rws, host := host } where
  params_wf := hp
  hb_wf := List.Pairwise.nil
  mb_wf := List.Pairwise.nil
  hb_cells _ ha := absurd ha List.not_mem_nil
  mb_cells _ ha := absurd ha List.not_mem_nil
  w_le := Nat.zero_le _
  mb_live _ _ hj := absurd hj (Nat.not_lt_zero _)
  status_reserved := Status.reserved_zero
  status_last := ⟨.ok, Status.last_zero⟩
  log_rows := hlog
  responses_wf := hrws
  blocked _ _ hexec := nomatch hexec
  off_lt _ _ hexec := nomatch hexec

theorem State.inv_construct {p : Params} (hp : p.wf) : (State.construct p).Inv :=
  State.inv_constructWith hp 0 [] (fun _ hw => absurd hw List.not_mem_nil) (fun _ hr => absurd hr List.not_mem_nil)

theorem State.Inv.afterReset {s : State} (h : s.Inv) : s.afterReset.Inv :=
  State.inv_constructWith h.params_wf (s.epoch + 1) s.host h.log_isRow h.responses_allowed

/-- The record of a cut command holds writes of before it and writes it would have issued (R217). -/
theorem Link.mem_cutAfter_log {before after : Link} {writes : Nat} {write : RowWrite}
    (h : write ∈ (before.cutAfter after writes).log) : write ∈ before.log ∨ write ∈ after.log := by
  rcases List.mem_append.mp h with hold | hnew
  · exact .inl hold
  · exact .inr (List.mem_of_mem_drop (List.mem_of_mem_take hnew))

theorem State.Inv.cutByReset {s t : State} (hs : s.Inv) (ht : t.Inv) (hp : t.params = s.params) (writes : Nat) :
    (s.cutByReset t writes).Inv := by
  refine State.inv_constructWith hs.params_wf (s.epoch + 1) s.host (fun write hmem => ?_) hs.responses_allowed
  rcases Link.mem_cutAfter_log hmem with hold | hnew
  · exact hs.log_isRow write hold
  · exact hp ▸ ht.log_isRow write hnew

/-! ## Every step -/

/-- All that a step can do (20_memory.md R66, R67; 70_reset_and_hazards.md R215 to R217, R226). -/
inductive StepResult (s : State) : State → Prop
  /-- nothing to take, or a word presented to a blocked engine -/
  | unchanged : StepResult s s
  /-- reset asserted by itself, or at a blocked engine -/
  | reset (rest : List HostInput) : StepResult s (s.withHost rest).afterReset
  /-- an accepted word -/
  | command (idle : s.engine = .idle) (rest : List HostInput) (i : Instr) : StepResult s (effect i (s.withHost rest))
  /-- an accepted word, cut by reset -/
  | cut (idle : s.engine = .idle) (rest : List HostInput) (i : Instr) (writes : Nat) :
    StepResult s ((s.withHost rest).cutByReset (effect i (s.withHost rest)) writes)

/-- Inversion of `runWord` at an idle engine. -/
theorem exists_effect_of_runWord {cw : Word} {s t : State} (hidle : s.engine = .idle) (h : runWord cw s = .next t) :
    ∃ i, t = effect i s := by
  obtain ⟨u, hu, hi⟩ := runWord_of_idle cw s hidle
  obtain rfl : u = t := by simpa [hu] using h
  exact hi

/-- Inversion of `step`. -/
theorem step_result {s t : State} (h : step s = .next t) : StepResult s t := by
  match hhost : s.host with
  | [] =>
    obtain rfl : s = t := by simpa [step, State.fetch, hhost] using h
    exact .unchanged
  | .command cw :: rest =>
    cases hbusy : s.busy with
    | true =>
      obtain rfl : s = t := by simpa [step, State.fetch, hhost, hbusy] using h
      exact .unchanged
    | false =>
      have hidle := s.busy_eq_false.mp hbusy
      have hrun : runWord cw (s.withHost rest) = .next t := by simpa [step, State.fetch, hhost, hbusy] using h
      obtain ⟨i, rfl⟩ := exists_effect_of_runWord (s := s.withHost rest) hidle hrun
      exact .command hidle rest i
  | .reset :: rest =>
    obtain rfl : (s.withHost rest).afterReset = t := by simpa [step, State.fetch, hhost] using h
    exact .reset rest
  | .commandThenReset cw writes :: rest =>
    cases hbusy : (s.withHost rest).busy with
    | true =>
      obtain rfl : (s.withHost rest).afterReset = t := by simpa [step, State.fetch, hhost, hbusy] using h
      exact .reset rest
    | false =>
      have hidle : s.engine = .idle := (s.withHost rest).busy_eq_false.mp hbusy
      obtain ⟨u, hrun, i, rfl⟩ := runWord_of_idle cw (s.withHost rest) hidle
      obtain rfl : (s.withHost rest).cutByReset (effect i (s.withHost rest)) writes = t := by
        simpa [step, State.fetch, hhost, hbusy, runCut, hrun] using h
      exact .cut hidle rest i writes

/-! ## The obligations -/

/-- Settles O56: the step's result is one of four, and each of them keeps the invariant and the parameters. -/
theorem everyStepKeepsInvariant : Obligations.EveryStepKeepsInvariant := by
  intro s t h hstep
  cases step_result hstep with
  | unchanged => exact ⟨h, rfl⟩
  | reset rest => exact ⟨(h.withHost rest).afterReset, rfl⟩
  | command hidle rest i => exact ⟨(h.withHost rest).effect hidle i, effect_params i _⟩
  | cut hidle rest i writes =>
    have hrest := h.withHost rest
    exact ⟨hrest.cutByReset (hrest.effect hidle i) (effect_params i _) writes, rfl⟩

/-- Settles O57: a constructed block has written nothing and recorded nothing. -/
theorem constructedBlockSatisfiesInvariant : Obligations.ConstructedBlockSatisfiesInvariant :=
  ⟨fun _ hp => State.inv_construct hp, State.inv_construct (by decide)⟩

end Sys2Proof.Machine
end

section
/-! PROOFS. The state's own rules (10_state.md): what PLOT is to a pixel, what a completion does to STATUS, which
instruction writes which of `HB`, `MB` and `W`, that no effect rests on STATUS, and what construction leaves. -/

namespace Sys2Proof.Machine

/-! ## STATUS -/

/-- A completion raises TXF on TX_FAIL and never clears it (60_exceptions.md R190). -/
theorem Status.txf_record (code : Code) (st : BitVec 8) :
    Status.txf (Status.record code st) = (Status.txf st || code = .txFail) := by
  cases code <;> simp [Status.txf, Status.record, Code.bits, Code.sticky]

/-- A completion raises CMDF on ILLEGAL and RANGE and never clears it (60_exceptions.md R190). -/
theorem Status.cmdf_record (code : Code) (st : BitVec 8) :
    Status.cmdf (Status.record code st) = (Status.cmdf st || code = .illegal || code = .range) := by
  cases code <;> simp [Status.cmdf, Status.record, Code.bits, Code.sticky]

/-! ## One pixel -/

/-- `shl8(1, bit)` has the one bit `bit`. -/
theorem getLsbD_shl8_one (bit i : Nat) (hi : i < 8) : (shl8 1#8 bit).getLsbD i = decide (i = bit) := by
  rw [Bool.eq_iff_iff]
  simp [shl8]
  omega

/-- PLOT's byte has the bit it names at `isOn` and every other bit as before. -/
theorem getLsbD_plotByte (isOn : Bool) (bit : Nat) (b : Byte) {i : Nat} (hi : i < 8) :
    (plotByte isOn bit b).getLsbD i = if i = bit then isOn else b.getLsbD i := by
  have hmask := getLsbD_shl8_one bit i hi
  cases isOn with
  | true =>
    rw [plotByte, if_pos rfl, BitVec.getLsbD_or, hmask]
    by_cases h : i = bit <;> simp [h]
  | false =>
    rw [plotByte, if_neg Bool.false_ne_true, BitVec.getLsbD_and, not8, BitVec.getLsbD_not, hmask]
    by_cases h : i = bit <;> simp [h, hi]

theorem bitOf_lt (x : Nat) : bitOf x < 8 := by
  unfold bitOf
  omega

/-- A segment and a bit of it name one panel column (10_state.md R26). -/
theorem eq_iff_segmentOf_bitOf (x y : Nat) : x = y ↔ segmentOf x = segmentOf y ∧ bitOf x = bitOf y := by
  unfold segmentOf bitOf
  omega

theorem segmentOf_lt {p : Params} {x : Nat} (hx : x < p.columns) : segmentOf x < p.n := Nat.div_lt_of_lt_mul hx

/-- Plotting into the byte of panel column `y` on row `r'` changes that pixel alone. -/
theorem State.pixel_writeHb_plotByte (s : State) (isOn : Bool) (r r' : Fin 8) {x y : Nat} (hx : x < s.params.columns)
    (hy : segmentOf y < s.params.n) :
    (s.writeHb r' (segmentOf y) (plotByte isOn (bitOf y) (s.hbByte r' (segmentOf y)))).pixel r x =
      if r = r' ∧ x = y then isOn else s.pixel r x := by
  simp only [State.pixel, State.hbByte_writeHb s r' r _ hy (segmentOf_lt hx).le, eq_iff_segmentOf_bitOf x y]
  by_cases hbyte : r = r' ∧ segmentOf x = segmentOf y
  · obtain ⟨rfl, hseg⟩ := hbyte
    simp only [hseg, true_and, if_true, getLsbD_plotByte _ _ _ (bitOf_lt x)]
  · have hpixel : ¬ (r = r' ∧ segmentOf x = segmentOf y ∧ bitOf x = bitOf y) := fun h => hbyte ⟨h.1, h.2.1⟩
    rw [if_neg hbyte, if_neg hpixel]

/-! ## What an effect leaves

LDMSG and NEWMSG write the message; every other effect leaves it, and no effect writes the parameters, the reset count or
the host's inputs. -/

/-- LDMSG writes `MB`, STATUS and the responses alone. -/
theorem effect_ldmsg_frame (row : BitVec 3) (col : BitVec 16) (data : BitVec 8) (s : State) :
    effect (.ldmsg row col data) s = { s with
      mb := (effect (.ldmsg row col data) s).mb, status := (effect (.ldmsg row col data) s).status,
      responses := (effect (.ldmsg row col data) s).responses } := by
  simp only [effect]
  split <;> rfl

/-- NEWMSG writes `MB`, `W`, STATUS and the responses alone. -/
theorem effect_newmsg_frame (w : BitVec 16) (s : State) :
    effect (.newmsg w) s = { s with
      mb := (effect (.newmsg w) s).mb, w := (effect (.newmsg w) s).w, status := (effect (.newmsg w) s).status,
      responses := (effect (.newmsg w) s).responses } := by
  simp only [effect]
  split <;> rfl

/-- An instruction other than those two writes neither `MB` nor `W`. -/
theorem effect_frame_of_not_message {i : Instr} (hnew : ∀ w, i ≠ .newmsg w) (hld : ∀ r c d, i ≠ .ldmsg r c d)
    (s : State) :
    effect i s = { s with
      hb := (effect i s).hb, status := (effect i s).status, engine := (effect i s).engine,
      link := (effect i s).link, responses := (effect i s).responses } := by
  cases i with
  | ldmsg row col data => exact absurd rfl (hld row col data)
  | newmsg w => exact absurd rfl (hnew w)
  | xmit =>
    simp only [effect]
    rw [State.finish_frame]
    rfl
  | display offset =>
    simp only [effect]; split
    · rfl
    · rw [State.finish_frame]
      rfl
  | scroll start =>
    simp only [effect]; split
    · rfl
    · rw [State.finish_frame, State.sweep_frame]
  | rdhb row col => simp only [effect]; split <;> rfl
  | rdmb row col => simp only [effect]; split <;> rfl
  | _ => rfl

/-- Only NEWMSG writes `W` (10_state.md R28). -/
theorem effect_w {i : Instr} (hnew : ∀ w, i ≠ .newmsg w) (s : State) : (effect i s).w = s.w := by
  by_cases hld : ∃ r c d, i = .ldmsg r c d
  · obtain ⟨r, c, d, rfl⟩ := hld
    rw [effect_ldmsg_frame]
  · rw [effect_frame_of_not_message hnew fun r c d h => hld ⟨r, c, d, h⟩]

/-- Only NEWMSG and LDMSG write `MB` (20_memory.md R52). -/
theorem effect_mb {i : Instr} (hnew : ∀ w, i ≠ .newmsg w) (hld : ∀ r c d, i ≠ .ldmsg r c d) (s : State) :
    (effect i s).mb = s.mb := by
  rw [effect_frame_of_not_message hnew hld]

/-- Only a reset draws the unspecified bytes anew (10_state.md R38). -/
theorem effect_epoch (i : Instr) (s : State) : (effect i s).epoch = s.epoch := by
  cases i with
  | ldmsg row col data => rw [effect_ldmsg_frame]
  | newmsg w => rw [effect_newmsg_frame]
  | _ => rw [effect_frame_of_not_message (by simp) (by simp)]

/-! ## What an effect writes of `HB`

An instruction fills every data byte, or plots one, or leaves the cells as they are. -/

/-- The instruction, run in `s`, composes or clears a whole frame (10_state.md R38). -/
def FillsHb (i : Instr) (s : State) : Prop :=
  (∃ v, i = .clear v) ∨ (∃ o, i = .compose o) ∨ (s.w ≠ 0#16 ∧ ((∃ o, i = .display o) ∨ (∃ o, i = .scroll o)))

theorem State.finish_hb (s : State) (off : Option Nat) (result : TxResult) : (s.finish off result).hb = s.hb := by
  rw [State.finish_frame]

/-- A frame filled is a frame written, whatever the link answered. -/
theorem isSome_effect_of_fillsHb {i : Instr} {s : State} (h : FillsHb i s) (r : Fin 8) {c : Nat} (hc : c < s.params.n) :
    ((effect i s).hb.read? (hbAddr s.params r c)).isSome := by
  rcases h with ⟨v, rfl⟩ | ⟨o, rfl⟩ | ⟨hw, ⟨o, rfl⟩ | ⟨o, rfl⟩⟩
  · exact s.isSome_fillHb _ r c hc
  · exact s.isSome_fillHb _ r c hc
  · simp only [effect, if_neg hw, State.finish_hb]
    exact s.isSome_fillHb _ r c hc
  · simp only [effect, if_neg hw, State.finish_hb]
    exact State.isSome_sweep _ _ s (sweepFrames_pos _ _ _) r c hc

theorem effect_plot_hb (col : BitVec 16) (row : BitVec 8) (isOn : Bool) (s : State) :
    (effect (.plot col row isOn) s).hb =
      s.hb.write (hbAddr s.params (plotRow row) (segmentOf (plotColumn s.params col)))
        (plotByte isOn (bitOf (plotColumn s.params col))
          (s.hbByte (plotRow row) (segmentOf (plotColumn s.params col)))) := rfl

/-- An instruction that neither fills nor plots leaves the cells of `HB`. -/
theorem effect_hb {i : Instr} {s : State} (hfill : ¬ FillsHb i s) (hplot : ∀ c r o, i ≠ .plot c r o) :
    (effect i s).hb = s.hb := by
  cases i with
  | clear v => exact absurd (.inl ⟨v, rfl⟩) hfill
  | compose o => exact absurd (.inr (.inl ⟨o, rfl⟩)) hfill
  | plot c r o => exact absurd rfl (hplot c r o)
  | display o =>
    have hw : s.w = 0#16 := by_contra fun hw => hfill (.inr (.inr ⟨hw, .inl ⟨o, rfl⟩⟩))
    simp [effect, hw]
  | scroll o =>
    have hw : s.w = 0#16 := by_contra fun hw => hfill (.inr (.inr ⟨hw, .inr ⟨o, rfl⟩⟩))
    simp [effect, hw]
  | xmit => exact State.finish_hb _ _ _
  | ldmsg row col data => rw [effect_ldmsg_frame]
  | newmsg w => rw [effect_newmsg_frame]
  | rdhb row col => simp only [effect]; split <;> rfl
  | rdmb row col => simp only [effect]; split <;> rfl
  | _ => rfl

/-- No effect takes a written data byte back. -/
theorem read?_hb_of_effect_none {i : Instr} {s : State} {r : Fin 8} {c : Nat} (hc : c < s.params.n)
    (h : (effect i s).hb.read? (hbAddr s.params r c) = none) : s.hb.read? (hbAddr s.params r c) = none := by
  by_cases hfill : FillsHb i s
  · have hsome := isSome_effect_of_fillsHb hfill r hc
    simp [h] at hsome
  · by_cases hplot : ∃ col row isOn, i = .plot col row isOn
    · obtain ⟨col, row, isOn, rfl⟩ := hplot
      rw [effect_plot_hb, Memory.read?_write] at h
      split at h
      · cases h
      · exact h
    · rwa [effect_hb hfill fun col row isOn hi => hplot ⟨col, row, isOn, hi⟩] at h

/-- A data byte that nothing has written reads as the free value drawn at reset (10_state.md R38). -/
theorem State.hbByte_of_unwritten (s : State) {r : Fin 8} {c : Nat} (hc : c < s.params.n)
    (h : s.hb.read? (hbAddr s.params r c) = none) : s.hbByte r c = Config.powerOn s.epoch .hb (hbAddr s.params r c) := by
  simp [State.hbByte_data s r hc, Memory.byteAt, h]

/-! ## No effect rests on STATUS -/

theorem State.finish_withStatus (s : State) (st : BitVec 8) (off : Option Nat) (result : TxResult) :
    (s.withStatus st).finish off result =
      (s.finish off result).withStatus ((s.withStatus st).finish off result).status := by
  cases result <;> rfl

theorem State.sweep_withStatus (frames off : Nat) (s : State) (st : BitVec 8) :
    (s.withStatus st).sweep frames off = ((s.sweep frames off).1.withStatus st, (s.sweep frames off).2) := by
  induction frames generalizing off s with
  | zero => rfl
  | succ frames ih =>
    by_cases h : (s.composeAt off).transmit.2 = .done
    · rw [State.sweep_succ_of_done s _ _ h, State.sweep_succ_of_done (s.withStatus st) _ _ h]
      exact ih (off + 1) (s.composeAt off).transmit.1
    · rw [State.sweep_succ_of_stop s _ _ h, State.sweep_succ_of_stop (s.withStatus st) _ _ h]
      rfl

/-- From a state with another STATUS an instruction other than RDST leads to the same state with another STATUS
(10_state.md R34). -/
theorem effect_withStatus {i : Instr} (hi : i ≠ .rdst) (s : State) (st : BitVec 8) :
    effect i (s.withStatus st) = (effect i s).withStatus (effect i (s.withStatus st)).status := by
  cases i with
  | rdst => exact absurd rfl hi
  | xmit => exact s.transmit.1.finish_withStatus st none s.transmit.2
  | display offset =>
    by_cases hw : s.w = 0#16
    · simp only [effect, State.withStatus_w, hw, if_true]
      rfl
    · simp only [effect, State.withStatus_w, hw, if_false]
      exact (s.composeAt offset.toNat).transmit.1.finish_withStatus st none _
  | scroll start =>
    by_cases hw : s.w = 0#16
    · simp only [effect, State.withStatus_w, hw, if_true]
      rfl
    · simp only [effect, State.withStatus_w, hw, if_false, State.withStatus_params, State.sweep_withStatus]
      exact State.finish_withStatus _ st _ _
  | ldmsg row col data =>
    by_cases hcol : s.w.toNat ≤ col.toNat <;> simp only [effect, State.withStatus_w, hcol, if_true, if_false] <;> rfl
  | newmsg w =>
    by_cases hw : s.params.wmax < w.toNat <;>
      simp only [effect, State.withStatus_params, hw, if_true, if_false] <;> rfl
  | rdhb row col =>
    by_cases hcol : s.params.n < col.toNat <;>
      simp only [effect, State.withStatus_params, hcol, if_true, if_false] <;> rfl
  | rdmb row col =>
    by_cases hcol : s.w.toNat ≤ col.toNat <;> simp only [effect, State.withStatus_w, hcol, if_true, if_false] <;> rfl
  | _ => rfl

/-! ## The obligations -/

/-- Settles O12: PLOT is one byte written, and of that byte one bit. -/
theorem plotSetsOnePixel : Obligations.PlotSetsOnePixel := by
  intro s t col row isOn hp hexec r x hx
  obtain ⟨-, rfl⟩ := (exec_next_iff _ _ _).mp hexec
  have hpixel := s.pixel_writeHb_plotByte isOn r (plotRow row) hx (segmentOf_plotColumn_lt hp col)
  simp only [Fin.ext_iff] at hpixel
  exact hpixel

/-- Settles O47: one lemma per field of STATUS. -/
theorem statusRecordsTheCode : Obligations.StatusRecordsTheCode := by
  intro code st
  refine ⟨?_, Status.txf_record code st, Status.cmdf_record code st, Status.reserved_record code st⟩
  rw [Status.last_record]
  cases code <;> rfl

/-- Settles O50: RDST reads STATUS into its response alone, and no other effect rests on it. -/
theorem flagsAffectNoEffect : Obligations.FlagsAffectNoEffect := by
  intro i s t u st ht hu
  obtain ⟨-, rfl⟩ := (exec_next_iff _ _ _).mp ht
  obtain ⟨-, rfl⟩ := (exec_next_iff _ (s.withStatus st) _).mp hu
  by_cases hi : i = .rdst
  · subst hi
    exact ⟨rfl, fun h => absurd rfl h⟩
  · rw [effect_withStatus hi]
    exact ⟨rfl, fun _ => rfl⟩

/-- Settles O51: an instruction outside the five neither fills nor plots. -/
theorem onlyFiveCommandsWriteHb : Obligations.OnlyFiveCommandsWriteHb := by
  intro i s t hexec hclear hplot hcompose hdisplay hscroll
  obtain ⟨-, rfl⟩ := (exec_next_iff _ _ _).mp hexec
  have hfill : ¬ FillsHb i s := by
    rintro (⟨v, h⟩ | ⟨o, h⟩ | ⟨-, ⟨o, h⟩ | ⟨o, h⟩⟩)
    · exact hclear v h
    · exact hcompose o h
    · exact hdisplay o h
    · exact hscroll o h
  have hhb := effect_hb hfill hplot
  exact ⟨hhb, State.hbByte_congr (effect_params i s) (effect_epoch i s) hhb⟩

/-- Settles O52, by the effects' frames. -/
theorem onlyMessageCommandsWriteMessage : Obligations.OnlyMessageCommandsWriteMessage := by
  intro i s t hexec
  obtain ⟨-, rfl⟩ := (exec_next_iff _ _ _).mp hexec
  exact ⟨fun hnew => effect_w hnew s, fun hnew hld => effect_mb hnew hld s⟩

/-- Settles O53: no effect takes a write back, and an unwritten byte reads as drawn at reset, before and after. -/
theorem unwrittenBytesAreStable : Obligations.UnwrittenBytesAreStable := by
  intro i s t r c hc hexec hnone
  obtain ⟨-, rfl⟩ := (exec_next_iff _ _ _).mp hexec
  have hbefore := read?_hb_of_effect_none hc hnone
  refine ⟨hbefore, ?_⟩
  rw [s.hbByte_of_unwritten hc hbefore, State.hbByte_of_unwritten _ (by rwa [effect_params]) (by rwa [effect_params]),
    effect_params, effect_epoch]

/-- Settles O54: each of these commands fills the frame before the link answers. -/
theorem nothingUnspecifiedRemains : Obligations.NothingUnspecifiedRemains := by
  intro i s t hexec hfill r c hc
  obtain ⟨-, rfl⟩ := (exec_next_iff _ _ _).mp hexec
  exact isSome_effect_of_fillsHb hfill r hc

/-- Settles O55: the table by evaluation, column `N` because it is computed. -/
theorem rowSelectPattern : Obligations.RowSelectPattern := ⟨by decide, State.hbByte_rowSelect⟩

/-- Settles O58: column `N` is computed in every state, and construction gives each other field its value. -/
theorem resetValues : Obligations.ResetValues := fun p =>
  ⟨rfl, (State.construct p).hbByte_rowSelect, rfl, rfl, rfl, rfl, rfl, rfl, rfl, rfl⟩

end Sys2Proof.Machine
end

section
/-! PROOFS. The channel and the message memory (20_memory.md): which word a step runs, that a blocked engine takes none, and
what may change a live message byte. -/

namespace Sys2Proof.Machine

/-! ## A word on the channel -/

/-- The engine takes a presented word unless a command executes (20_memory.md R67). -/
theorem State.fetch_command {s : State} {cw : Word} {rest : List HostInput} (h : s.host = .command cw :: rest) :
    s.fetch = if s.busy then none else some (.command cw, s.withHost rest) := by
  simp only [State.fetch, h]

theorem State.busy_of_executing {s : State} {off : Option Nat} {row : Fin 8} (h : s.engine = .executing off row) :
    s.busy = true := by
  simp [State.busy, h]

/-- A word presented to an idle engine is run, after it was taken off the channel (20_memory.md R66). -/
theorem step_command_of_idle {s : State} {cw : Word} {rest : List HostInput} (hidle : s.engine = .idle)
    (hhost : s.host = .command cw :: rest) : step s = runWord cw (s.withHost rest) := by
  have hbusy := s.busy_eq_false.mpr hidle
  simp [step, State.fetch_command hhost, hbusy]

/-- A word presented to a blocked engine stays on the channel (20_memory.md R67). -/
theorem step_command_of_executing {s : State} {cw : Word} {rest : List HostInput} {off : Option Nat} {row : Fin 8}
    (hexecuting : s.engine = .executing off row) (hhost : s.host = .command cw :: rest) : step s = .next s := by
  have hbusy := State.busy_of_executing hexecuting
  simp [step, State.fetch_command hhost, hbusy]

theorem runWord_of_decode {cw : Word} {i : Instr} (h : decode cw = .ok i) (s : State) : runWord cw s = exec i s := by
  simp only [runWord, h]

/-! ## The message memory -/

/-- LDMSG leaves every byte but the one it names (41_message_ops.md R121). -/
theorem mbByte_effect_ldmsg_of_ne (row : BitVec 3) (col : BitVec 16) (data : BitVec 8) {s : State} {r : Fin 8} {j : Nat}
    (hw : s.w.toNat ≤ s.params.wmax) (hj : j < s.w.toNat) (hne : ¬ (rowIndex row = r ∧ col.toNat = j)) :
    (effect (.ldmsg row col data) s).mbByte r j = s.mbByte r j := by
  by_cases hcol : s.w.toNat ≤ col.toNat
  · have hrange : effect (.ldmsg row col data) s = s.raiseError .range := if_pos hcol
    rw [hrange]
    exact State.mbByte_congr rfl rfl rfl r j
  · have hstore : effect (.ldmsg row col data) s = (s.writeMb (rowIndex row) col.toNat data).completeOk := if_neg hcol
    have hother : ¬ (r = rowIndex row ∧ j = col.toNat) := fun h => hne ⟨h.1.symm, h.2.symm⟩
    calc (effect (.ldmsg row col data) s).mbByte r j
        = (s.writeMb (rowIndex row) col.toNat data).mbByte r j := by
          rw [hstore]
          exact State.mbByte_congr rfl rfl rfl r j
      _ = s.mbByte r j := by
          rw [s.mbByte_writeMb (rowIndex row) r data (by omega) (by omega), if_neg hother]

/-- An instruction other than NEWMSG and LDMSG leaves every message byte (20_memory.md R52). -/
theorem mbByte_effect_of_not_message {i : Instr} (hnew : ∀ w, i ≠ .newmsg w) (hld : ∀ r c d, i ≠ .ldmsg r c d)
    (s : State) (r : Fin 8) (j : Nat) : (effect i s).mbByte r j = s.mbByte r j :=
  State.mbByte_congr (effect_params i s) (effect_epoch i s) (effect_mb hnew hld s) r j

/-! ## The obligations -/

/-- Settles O18: a store goes to one place of the memory, and the other instructions that the statement allows write neither
`MB` nor `W`. -/
theorem messageByteStaysUntilWritten : Obligations.MessageByteStaysUntilWritten := by
  intro i s t r j hw hj hexec hnew hplace
  obtain ⟨-, rfl⟩ := (exec_next_iff _ _ _).mp hexec
  refine ⟨?_, effect_w hnew s⟩
  by_cases hld : ∃ row col data, i = .ldmsg row col data
  · obtain ⟨row, col, data, rfl⟩ := hld
    exact mbByte_effect_ldmsg_of_ne row col data hw hj (hplace row col data rfl)
  · exact mbByte_effect_of_not_message hnew (fun row col data h => hld ⟨row, col, data, h⟩) s r j

/-- Settles O5: an idle engine runs the presented word, and a word is run as the instruction it decodes to. -/
theorem stepRunsDecodedCommand : Obligations.StepRunsDecodedCommand := by
  intro s cw rest i hidle hhost hdecode
  rw [step_command_of_idle hidle hhost, runWord_of_decode hdecode]
  rfl

/-- Settles O8: every meaning checks the engine first, and so does the channel. -/
theorem busyEngineTakesNoCommand : Obligations.BusyEngineTakesNoCommand := fun _ _ _ hexecuting =>
  ⟨fun i => exec_of_executing i hexecuting, fun _ _ hhost => step_command_of_executing hexecuting hhost⟩

end Sys2Proof.Machine
end

section
/-! PROOFS. The encoding (30_encoding.md): the decoder and the encoder undo each other, and the rows of the opcode map say
which words are instructions. -/

namespace Sys2Proof

/-! ## The rows of the opcode map -/

/-- The word of every instruction lies in its row of the opcode map (R84). -/
theorem encode_fits_row (i : Instr) : Laws.EncodingFitsRow.Statement i := by
  cases i with
  | nop => exact Laws.EncodingFitsRow.nop
  | clear value => exact Laws.EncodingFitsRow.clear value
  | plot col row isOn => exact Laws.EncodingFitsRow.plot col row isOn
  | ldmsg row col data => exact Laws.EncodingFitsRow.ldmsg row col data
  | newmsg w => exact Laws.EncodingFitsRow.newmsg w
  | compose offset => exact Laws.EncodingFitsRow.compose offset
  | xmit => exact Laws.EncodingFitsRow.xmit
  | display offset => exact Laws.EncodingFitsRow.display offset
  | scroll start => exact Laws.EncodingFitsRow.scroll start
  | clrf => exact Laws.EncodingFitsRow.clrf
  | rdhb row col => exact Laws.EncodingFitsRow.rdhb row col
  | rdmb row col => exact Laws.EncodingFitsRow.rdmb row col
  | rdst => exact Laws.EncodingFitsRow.rdst
  | rdcfg => exact Laws.EncodingFitsRow.rdcfg
  | reservedE low => exact Laws.EncodingFitsRow.reservedE low
  | reservedF low => exact Laws.EncodingFitsRow.reservedF low

/-- No two rows of the opcode map have one mnemonic. -/
theorem mnemonics_nodup : ((commandRows ++ reservedRows).map OpRow.mnemonic).Nodup := by decide

/-- The word of an instruction matches the row of the instruction's mnemonic (R84). -/
theorem encode_and_mask {i : Instr} {row : OpRow} (hrow : row ∈ commandRows ++ reservedRows)
    (hname : i.mnemonic = row.mnemonic) : encode i &&& row.mask = row.pattern := by
  obtain ⟨row', hrow', hname', hfit⟩ := encode_fits_row i
  obtain rfl : row' = row := List.inj_on_of_nodup_map mnemonics_nodup hrow' hrow (hname'.trans hname)
  exact hfit

/-- A word of a known opcode is that opcode and the bits below it: no bit of a reserved row is dropped. -/
theorem op_append_belowOp_of_opField {cw : Word} {op : BitVec 4} (hop : opField cw = op) : op ++ belowOp cw = cw := by
  rw [← hop, op_append_belowOp]

theorem op_append_belowOp_of_mask {cw : Word} {op : BitVec 4} (h : cw &&& 0xF0000000#32 = op ++ 0#28) :
    op ++ belowOp cw = cw :=
  op_append_belowOp_of_opField (opField_of_mask cw _ op rfl h)

/-- A word that matches a row of the opcode map is the word of an instruction of that row, built of the word's own fields
(R82, R84). -/
theorem exists_encode_of_mask {cw : Word} {row : OpRow} (hrow : row ∈ commandRows ++ reservedRows)
    (h : cw &&& row.mask = row.pattern) : ∃ i, encode i = cw ∧ i.mnemonic = row.mnemonic := by
  simp only [commandRows, reservedRows, List.cons_append, List.nil_append, List.mem_cons, List.not_mem_nil,
    or_false] at hrow
  rcases hrow with rfl | rfl | rfl | rfl | rfl | rfl | rfl | rfl | rfl | rfl | rfl | rfl | rfl | rfl | rfl | rfl
  · exact ⟨.nop, formatZ_fields cw 0x0#4 h, rfl⟩
  · exact ⟨.clear _, formatV_fields cw 0x1#4 h, rfl⟩
  · exact ⟨.plot _ _ _, formatP_fields cw 0x2#4 h, rfl⟩
  · exact ⟨.ldmsg _ _ _, formatM_fields cw 0x3#4 h, rfl⟩
  · exact ⟨.newmsg _, formatW_fields cw 0x4#4 h, rfl⟩
  · exact ⟨.compose _, formatO_fields cw 0x5#4 h, rfl⟩
  · exact ⟨.xmit, formatZ_fields cw 0x6#4 h, rfl⟩
  · exact ⟨.display _, formatO_fields cw 0x7#4 h, rfl⟩
  · exact ⟨.scroll _, formatO_fields cw 0x8#4 h, rfl⟩
  · exact ⟨.clrf, formatZ_fields cw 0x9#4 h, rfl⟩
  · exact ⟨.rdhb _ _, formatR_fields cw 0xA#4 h, rfl⟩
  · exact ⟨.rdmb _ _, formatR_fields cw 0xB#4 h, rfl⟩
  · exact ⟨.rdst, formatZ_fields cw 0xC#4 h, rfl⟩
  · exact ⟨.rdcfg, formatZ_fields cw 0xD#4 h, rfl⟩
  · exact ⟨.reservedE (belowOp cw), op_append_belowOp_of_mask (op := 0xE#4) h, rfl⟩
  · exact ⟨.reservedF (belowOp cw), op_append_belowOp_of_mask (op := 0xF#4) h, rfl⟩

/-! ## The round trips -/

/-- Where the decoder checks the word of a command against the command's own row, it reads the command back. -/
theorem decode_encode_of_checked {i : Instr} (k : Fin 14) (hname : i.mnemonic = (commandRows[k]).mnemonic)
    (h : decode (encode i) = checked (encode i) (commandRows[k]).mask (commandRows[k]).pattern i) :
    decode (encode i) = .ok i := by
  have hfit := encode_and_mask (List.mem_append_left reservedRows (List.getElem_mem k.isLt)) hname
  exact h.trans ((checked_ok_iff _ _ _ i i).mpr ⟨hfit, rfl⟩)

/-- The decoder reads every instruction back from its word: the opcode names the row and the fields are the operands
(R82, R84, R90). -/
theorem decode_encode (i : Instr) : decode (encode i) = .ok i := by
  cases i with
  | nop => exact decode_encode_of_checked 0 rfl (by simp [decode, encode, commandRows])
  | clear value => exact decode_encode_of_checked 1 rfl (by simp [decode, encode, commandRows])
  | plot col row isOn => exact decode_encode_of_checked 2 rfl (by simp [decode, encode, commandRows])
  | ldmsg row col data => exact decode_encode_of_checked 3 rfl (by simp [decode, encode, commandRows])
  | newmsg w => exact decode_encode_of_checked 4 rfl (by simp [decode, encode, commandRows])
  | compose offset => exact decode_encode_of_checked 5 rfl (by simp [decode, encode, commandRows])
  | xmit => exact decode_encode_of_checked 6 rfl (by simp [decode, encode, commandRows])
  | display offset => exact decode_encode_of_checked 7 rfl (by simp [decode, encode, commandRows])
  | scroll start => exact decode_encode_of_checked 8 rfl (by simp [decode, encode, commandRows])
  | clrf => exact decode_encode_of_checked 9 rfl (by simp [decode, encode, commandRows])
  | rdhb row col => exact decode_encode_of_checked 10 rfl (by simp [decode, encode, commandRows])
  | rdmb row col => exact decode_encode_of_checked 11 rfl (by simp [decode, encode, commandRows])
  | rdst => exact decode_encode_of_checked 12 rfl (by simp [decode, encode, commandRows])
  | rdcfg => exact decode_encode_of_checked 13 rfl (by simp [decode, encode, commandRows])
  | reservedE low => simp [decode, encode]
  | reservedF low => simp [decode, encode]

/-- A row's check drops no bit where the fields below its mask rebuild the word. -/
theorem encode_of_checked {cw mask pattern : Word} {i j : Instr} (hfields : cw &&& mask = pattern → encode i = cw)
    (h : checked cw mask pattern i = .ok j) : encode j = cw := by
  obtain ⟨hmask, rfl⟩ := (checked_ok_iff cw mask pattern i j).mp h
  exact hfields hmask

/-- A word that the decoder reads is the word of what it reads (R82, R84, R86). -/
theorem encode_of_decode {cw : Word} {i : Instr} (h : decode cw = .ok i) : encode i = cw := by
  unfold decode at h
  split at h
  · exact encode_of_checked (formatZ_fields cw 0x0#4) h
  · exact encode_of_checked (formatV_fields cw 0x1#4) h
  · exact encode_of_checked (formatP_fields cw 0x2#4) h
  · exact encode_of_checked (formatM_fields cw 0x3#4) h
  · exact encode_of_checked (formatW_fields cw 0x4#4) h
  · exact encode_of_checked (formatO_fields cw 0x5#4) h
  · exact encode_of_checked (formatZ_fields cw 0x6#4) h
  · exact encode_of_checked (formatO_fields cw 0x7#4) h
  · exact encode_of_checked (formatO_fields cw 0x8#4) h
  · exact encode_of_checked (formatZ_fields cw 0x9#4) h
  · exact encode_of_checked (formatR_fields cw 0xA#4) h
  · exact encode_of_checked (formatR_fields cw 0xB#4) h
  · exact encode_of_checked (formatZ_fields cw 0xC#4) h
  · exact encode_of_checked (formatZ_fields cw 0xD#4) h
  next hop =>
    obtain rfl : Instr.reservedE (belowOp cw) = i := Except.ok.inj h
    exact op_append_belowOp_of_opField (BitVec.eq_of_toNat_eq hop)
  next =>
    have hop : opField cw = 0xF#4 := by
      simp only [imp_false] at *
      bv_omega
    obtain rfl : Instr.reservedF (belowOp cw) = i := Except.ok.inj h
    exact op_append_belowOp_of_opField hop

/-- What the decoder reads, said once: the instruction whose word it is. -/
theorem decode_ok_iff (cw : Word) (i : Instr) : decode cw = .ok i ↔ encode i = cw :=
  ⟨encode_of_decode, fun h => h ▸ decode_encode i⟩

/-- A word matches a row of the opcode map exactly when the decoder reads from it an instruction of that row (R84). -/
theorem mask_iff_decode (cw : Word) {row : OpRow} (hrow : row ∈ commandRows ++ reservedRows) :
    cw &&& row.mask = row.pattern ↔ ∃ i, decode cw = .ok i ∧ i.mnemonic = row.mnemonic := by
  simp only [decode_ok_iff]
  constructor
  · exact exists_encode_of_mask hrow
  · rintro ⟨i, rfl, hname⟩
    exact encode_and_mask hrow hname

/-- A word matches at most one row of the opcode map (R84). -/
theorem mnemonic_eq_of_mask {cw : Word} {a b : OpRow} (ha : a ∈ commandRows ++ reservedRows)
    (hb : b ∈ commandRows ++ reservedRows) (hma : cw &&& a.mask = a.pattern) (hmb : cw &&& b.mask = b.pattern) :
    a.mnemonic = b.mnemonic := by
  obtain ⟨i, hi, hia⟩ := (mask_iff_decode cw ha).mp hma
  obtain ⟨j, hj, hjb⟩ := (mask_iff_decode cw hb).mp hmb
  obtain rfl : i = j := Except.ok.inj (hi.symm.trans hj)
  exact hia.symm.trans hjb

/-! ## The words that are no command -/

/-- The well-formed instructions are those of the command rows (R87, R88). -/
theorem wellFormed_iff (i : Instr) : i.wellFormed = true ↔ ∃ row ∈ commandRows, i.mnemonic = row.mnemonic := by
  cases i <;> simp [Instr.wellFormed, Instr.mnemonic, commandRows]

/-- The verdict of R90 is true exactly of the words that match a command row. -/
theorem isCommand_iff (cw : Word) : isCommand cw = true ↔ ∃ row ∈ commandRows, cw &&& row.mask = row.pattern := by
  have hmem {row : OpRow} (h : row ∈ commandRows) : row ∈ commandRows ++ reservedRows := List.mem_append_left _ h
  constructor
  · intro h
    unfold isCommand at h
    split at h
    next i hdecode =>
      obtain ⟨row, hrow, hname⟩ := (wellFormed_iff i).mp h
      exact ⟨row, hrow, (mask_iff_decode cw (hmem hrow)).mpr ⟨i, hdecode, hname⟩⟩
    next => cases h
  · rintro ⟨row, hrow, hmask⟩
    obtain ⟨i, hdecode, hname⟩ := (mask_iff_decode cw (hmem hrow)).mp hmask
    simp only [isCommand, hdecode]
    exact (wellFormed_iff i).mpr ⟨row, hrow, hname⟩

/-! ## The obligations on the encoding -/

/-- Settles O1: case by case over the rows, by the fields of each format. -/
theorem decodeOfEncodeIsIdentity : Obligations.DecodeOfEncodeIsIdentity := decode_encode

/-- Settles O2: each row's mask and fields together name every bit of the word. -/
theorem encodeOfDecodeIsIdentity : Obligations.EncodeOfDecodeIsIdentity := fun _ _ => encode_of_decode

/-- Settles O3: a matching word is rebuilt from its fields, and the decoder reads one instruction, of one mnemonic. -/
theorem commandOfRowIffMaskMatches : Obligations.CommandOfRowIffMaskMatches := by
  have hnames := List.pairwise_map.mp mnemonics_nodup
  exact ⟨fun cw _ hrow => mask_iff_decode cw hrow,
    hnames.imp_of_mem fun ha hb hne _ ⟨hma, hmb⟩ => hne (mnemonic_eq_of_mask ha hb hma hmb)⟩

/-- Settles O4: each word is the word of the command named. -/
theorem workedEncodingsDecode : Obligations.WorkedEncodingsDecode := by
  simp only [Obligations.WorkedEncodingsDecode, decode_ok_iff]
  decide

end Sys2Proof
end

section
/-! PROOFS. Completion (30_encoding.md): a word of no command row completes ILLEGAL, a command returns one response or blocks,
and the pseudo-instruction GLYPH stores a glyph. -/

namespace Sys2Proof.Machine

/-! ## An illegal word -/

/-- An ILLEGAL completion writes STATUS and one response, the same for every word (60_exceptions.md R188). -/
theorem State.raiseError_illegal (s : State) :
    s.raiseError .illegal = { s with
      status := Status.record .illegal s.status, responses := s.responses ++ [0x20000000#32] } := rfl

/-- The instructions that are no command have the effect of an illegal word (30_encoding.md R87). -/
theorem effect_of_not_wellFormed {i : Instr} (h : i.wellFormed = false) (s : State) :
    effect i s = s.raiseError .illegal := by
  cases i with
  | reservedE low => rfl
  | reservedF low => rfl
  | _ => cases h

/-- A word that is no command completes ILLEGAL, whether a must-be-zero bit is 1 or its opcode is reserved
(30_encoding.md R86, R87). -/
theorem runWord_of_not_isCommand {cw : Word} (h : isCommand cw = false) {s : State} (hidle : s.engine = .idle) :
    runWord cw s = .next (s.raiseError .illegal) := by
  cases hdecode : decode cw with
  | ok i =>
    have hwf : i.wellFormed = false := by simpa only [isCommand, hdecode] using h
    rw [runWord_of_decode hdecode, exec_of_idle i hidle, effect_of_not_wellFormed hwf]
  | error e => simp only [runWord, hdecode, whenIdle_idle _ _ hidle]

/-! ## Completion -/

/-- CLRF clears TXF (45_system.md R176). -/
theorem Status.txf_clearSticky (st : BitVec 8) : Status.txf (Status.clearSticky st) = false := by
  simp [Status.txf, Status.clearSticky]

/-- CLRF clears CMDF (45_system.md R176). -/
theorem Status.cmdf_clearSticky (st : BitVec 8) : Status.cmdf (Status.clearSticky st) = false := by
  simp [Status.cmdf, Status.clearSticky]

/-! ## GLYPH -/

/-- The command that stores row `r` of a glyph in byte column `j` (R95). -/
def storeGlyphRow (j : BitVec 16) (g : Glyph) (r : Fin 8) : Instr := .ldmsg (BitVec.ofFin r) j g[r]

/-- GLYPH is one store per row, row 0 first (R95). -/
theorem assembleLine_glyphLine (j : BitVec 16) (g : Glyph) :
    assembleLine (glyphLine j.toNat g) = some (allRows.map (storeGlyphRow j g)) := by
  have hcol : j.toNat < 65536 := j.isLt
  have hbyte (b : Byte) : b.toNat < 256 := b.isLt
  have hfits : (glyphLine j.toNat g).wellFormed = true := by simp [glyphLine, AsmLine.wellFormed, hcol, hbyte]
  simp only [assembleLine, hfits, if_true]
  simp [glyphLine, allRows, storeGlyphRow]

/-- LDMSG to a live column stores its byte in its row and leaves the column's other rows (41_message_ops.md R121). -/
theorem mbByte_effect_ldmsg (row : BitVec 3) {col : BitVec 16} (data : BitVec 8) {s : State}
    (hw : s.w.toNat ≤ s.params.wmax) (hcol : col.toNat < s.w.toNat) (r : Fin 8) :
    (effect (.ldmsg row col data) s).mbByte r col.toNat = if r = rowIndex row then data else s.mbByte r col.toNat := by
  have hstore : effect (.ldmsg row col data) s = (s.writeMb (rowIndex row) col.toNat data).completeOk :=
    if_neg (by omega)
  calc (effect (.ldmsg row col data) s).mbByte r col.toNat
      = (s.writeMb (rowIndex row) col.toNat data).mbByte r col.toNat := by
        rw [hstore]
        exact State.mbByte_congr rfl rfl rfl r col.toNat
    _ = _ := by
        rw [s.mbByte_writeMb (rowIndex row) r data (by omega) (by omega)]
        simp only [and_true]

/-- Storing some rows of a glyph, one after the other, leaves those rows of the column at the glyph's bytes and the others as
they were. -/
theorem execList_storeGlyphRow {j : BitVec 16} (g : Glyph) (rows : List (Fin 8)) {s : State} (hidle : s.engine = .idle)
    (hw : s.w.toNat ≤ s.params.wmax) (hj : j.toNat < s.w.toNat) :
    ∃ t, execList (rows.map (storeGlyphRow j g)) s = some t ∧ t.engine = .idle ∧ t.w = s.w ∧
      ∀ r, t.mbByte r j.toNat = if r ∈ rows then g[r] else s.mbByte r j.toNat := by
  induction rows generalizing s with
  | nil => exact ⟨s, rfl, hidle, rfl, fun r => by simp⟩
  | cons row rest ih =>
    have hidle' : (effect (storeGlyphRow j g row) s).engine = .idle := by
      rw [storeGlyphRow, effect_ldmsg_frame]
      exact hidle
    have hw' : (effect (storeGlyphRow j g row) s).w = s.w := effect_w (by simp [storeGlyphRow]) s
    obtain ⟨t, hrun, hidlet, hwt, hbytes⟩ := ih hidle' (by rwa [hw', effect_params]) (by rwa [hw'])
    refine ⟨t, ?_, hidlet, hwt.trans hw', fun r => ?_⟩
    · simp only [List.map_cons, execList, exec_of_idle _ hidle, hrun]
    · have hstored : (effect (storeGlyphRow j g row) s).mbByte r j.toNat = if r = row then g[row] else s.mbByte r j.toNat :=
        mbByte_effect_ldmsg (BitVec.ofFin row) g[row] hw hj r
      rw [hbytes, hstored]
      by_cases hr : r = row <;> simp [hr]

/-! ## The obligations -/

/-- Settles O6: a word of no command row is no command, and such a word completes ILLEGAL. -/
theorem illegalWordCompletesIllegal : Obligations.IllegalWordCompletesIllegal := by
  intro s cw rest hidle hhost hnone
  have hnot : isCommand cw = false := by
    rw [Bool.eq_false_iff, ne_eq, isCommand_iff]
    rintro ⟨row, hrow, hmask⟩
    exact hnone row hrow hmask
  have hidle' : (s.withHost rest).engine = .idle := hidle
  rw [step_command_of_idle hidle hhost, runWord_of_not_isCommand hnot hidle', State.raiseError_illegal]
  rfl

/-- Settles O7: a reserved row is not well formed, whatever its low bits. -/
theorem reservedOpcodesCompleteIllegal : Obligations.ReservedOpcodesCompleteIllegal := by
  intro s low hidle
  simp only [exec_of_idle _ hidle, effect_of_not_wellFormed (i := .reservedE low) rfl,
    effect_of_not_wellFormed (i := .reservedF low) rfl, State.raiseError_illegal, and_self]

/-- Settles O17: GLYPH stores the glyph's rows, and RDMB of a live column returns the byte that stands there. -/
theorem glyphRoundTrip : Obligations.GlyphRoundTrip := by
  intro s j g hidle hw hj
  obtain ⟨t, hrun, hidlet, hwt, hbytes⟩ := execList_storeGlyphRow g allRows hidle hw hj
  refine ⟨_, t, assembleLine_glyphLine j g, by simp, hrun, fun row => ?_⟩
  have hread : effect (.rdmb row j) t = t.complete .ok 0#16 (t.mbByte (rowIndex row) j.toNat) :=
    if_neg (by rw [hwt]; omega)
  rw [exec_of_idle _ hidlet, hread, hbytes, if_pos (mem_allRows _)]
  rfl

/-- Settles O48: a case for each way an instruction can end. -/
theorem oneResponsePerCompletion : Obligations.OneResponsePerCompletion := by
  intro i s t hexec
  obtain ⟨hidle, rfl⟩ := (exec_next_iff _ _ _).mp hexec
  have hbusy {u : State} (h : u.engine = s.engine) : u.busy = false := u.busy_eq_false.mpr (h.trans hidle)
  cases effect_ending i s with
  | stalled off row _ hresponses hstatus hengine => exact .inl ⟨State.busy_of_executing hengine, hresponses, hstatus⟩
  | read hread aux data hresponses hstatus hengine =>
    refine .inr ⟨hbusy hengine, .ok, aux, data, hresponses, fun h => absurd rfl h, fun _ => hstatus, fun hst hcfg => ?_⟩
    exact absurd hread (not_or.mpr ⟨hst, hcfg⟩)
  | cleared hclrf hresponses hstatus hengine =>
    subst hclrf
    refine .inr ⟨hbusy hengine, .ok, 0#16, 0#8, hresponses, fun _ => ⟨rfl, rfl⟩, fun h => by simp at h, fun _ _ => ?_⟩
    rw [hstatus, Status.last_record, Status.txf_record, Status.cmdf_record, Status.txf_clearSticky, Status.cmdf_clearSticky]
    simp
  | completed hst hcfg hclrf code aux data hempty hresponses hstatus hengine =>
    refine .inr ⟨hbusy hengine, code, aux, data, hresponses, hempty, fun h => absurd h (not_or.mpr ⟨hst, hcfg⟩),
      fun _ _ => ?_⟩
    rw [hstatus, Status.last_record, Status.txf_record, Status.cmdf_record]
    simp [hclrf]

end Sys2Proof.Machine
end

section
/-! PROOFS. The hardware-buffer commands (40_buffer_ops.md): CLEAR fills the data bytes, PLOT writes one of them, RDHB reads
one, and each leaves every other field to its completion. -/

namespace Sys2Proof.Machine

/-! ## Completion without a value, and with RANGE -/

/-- An OK completion without a value writes STATUS and one zero response (30_encoding.md R92). -/
theorem State.completeOk_frame (s : State) :
    s.completeOk = { s with status := Status.record .ok s.status, responses := s.responses ++ [0x00000000#32] } := rfl

/-- A RANGE completion writes STATUS and one response, the same for every command (60_exceptions.md R189). -/
theorem State.raiseError_range (s : State) :
    s.raiseError .range = { s with
      status := Status.record .range s.status, responses := s.responses ++ [0x30000000#32] } := rfl

theorem State.hbByte_completeOk (s : State) (r : Fin 8) (c : Nat) : s.completeOk.hbByte r c = s.hbByte r c :=
  State.hbByte_congr rfl rfl rfl r c

/-! ## What each command leaves in `HB`, and its frame -/

/-- After CLEAR every data byte reads as the value (R110). -/
theorem hbByte_effect_clear (value : BitVec 8) (s : State) (r : Fin 8) {c : Nat} (hc : c < s.params.n) :
    (effect (.clear value) s).hbByte r c = value :=
  calc (effect (.clear value) s).hbByte r c
      = (s.fillHb fun _ _ => value).hbByte r c := State.hbByte_completeOk _ r c
    _ = value := s.hbByte_fillHb _ r hc

theorem effect_clear_frame (value : BitVec 8) (s : State) :
    effect (.clear value) s = { s with
      hb := (effect (.clear value) s).hb, status := Status.record .ok s.status,
      responses := s.responses ++ [0x00000000#32] } := State.completeOk_frame _

/-- After PLOT the byte at the wrapped coordinates reads as PLOT's byte, and every other byte of `HB` as before (R111). -/
theorem hbByte_effect_plot (col : BitVec 16) (row : BitVec 8) (isOn : Bool) {s : State} (hp : s.params.wf) (r : Fin 8)
    {c : Nat} (hc : c ≤ s.params.n) :
    (effect (.plot col row isOn) s).hbByte r c =
      if r = plotRow row ∧ c = segmentOf (plotColumn s.params col) then
        plotByte isOn (bitOf (plotColumn s.params col)) (s.hbByte (plotRow row) (segmentOf (plotColumn s.params col)))
      else s.hbByte r c :=
  (State.hbByte_completeOk _ r c).trans (s.hbByte_writeHb (plotRow row) r _ (segmentOf_plotColumn_lt hp col) hc)

theorem effect_plot_frame (col : BitVec 16) (row : BitVec 8) (isOn : Bool) (s : State) :
    effect (.plot col row isOn) s = { s with
      hb := (effect (.plot col row isOn) s).hb, status := Status.record .ok s.status,
      responses := s.responses ++ [0x00000000#32] } := State.completeOk_frame _

/-! ## The obligations -/

/-- Settles O10: CLEAR fills the data bytes, and column `N` is computed in every state. -/
theorem clearFillsEveryDataByte : Obligations.ClearFillsEveryDataByte := by
  intro s value hidle
  exact ⟨effect (.clear value) s, exec_of_idle _ hidle, fun r _ hc => hbByte_effect_clear value s r hc,
    State.hbByte_rowSelect _, effect_clear_frame value s⟩

/-- Settles O11: the wrapped column lies in a data segment, so PLOT is one data byte written. -/
theorem plotChangesOneByte : Obligations.PlotChangesOneByte := by
  intro s col row isOn hp hidle x r seg bit
  have hseg : seg < s.params.n := segmentOf_plotColumn_lt hp col
  refine ⟨hseg, effect (.plot col row isOn) s, exec_of_idle _ hidle, ?_, fun r' c' hc' hother => ?_,
    effect_plot_frame col row isOn s⟩
  · exact (hbByte_effect_plot col row isOn hp r hseg.le).trans (if_pos ⟨rfl, rfl⟩)
  · exact (hbByte_effect_plot col row isOn hp r' hc').trans (if_neg hother)

/-- Settles O13: past column `N` the completion is RANGE, up to it the byte is returned, and column `N` is computed. -/
theorem rdhbReturnsByteOrRange : Obligations.RdhbReturnsByteOrRange := by
  intro s row col hidle
  refine ⟨?_, s.hbByte_rowSelect (rowIndex row)⟩
  rw [exec_of_idle _ hidle]
  by_cases hcol : s.params.n < col.toNat
  · rw [if_pos hcol, show effect (.rdhb row col) s = s.raiseError .range from if_pos hcol, State.raiseError_range]
  · rw [if_neg hcol, show effect (.rdhb row col) s = s.complete .ok 0#16 (s.hbByte (rowIndex row) col.toNat) from
      if_neg hcol]
    rfl

end Sys2Proof.Machine
end

section
/-! PROOFS. The message-buffer commands (41_message_ops.md): NEWMSG blanks the columns of the new message, LDMSG stores one
byte of a live column, RDMB reads one, and where there is no such place each completes RANGE. -/

namespace Sys2Proof.Machine

theorem State.mbByte_completeOk (s : State) (r : Fin 8) (j : Nat) : s.completeOk.mbByte r j = s.mbByte r j :=
  State.mbByte_congr rfl rfl rfl r j

/-! ## What each command does, on either side of its bound -/

theorem effect_newmsg_of_le {w : BitVec 16} {s : State} (hw : w.toNat ≤ s.params.wmax) :
    effect (.newmsg w) s = ((s.blankMb w.toNat).withW w).completeOk := if_neg (Nat.not_lt_of_le hw)

theorem effect_newmsg_of_gt {w : BitVec 16} {s : State} (hw : s.params.wmax < w.toNat) :
    effect (.newmsg w) s = s.raiseError .range := if_pos hw

theorem effect_ldmsg_of_lt (row : BitVec 3) {col : BitVec 16} (data : BitVec 8) {s : State}
    (hcol : col.toNat < s.w.toNat) :
    effect (.ldmsg row col data) s = (s.writeMb (rowIndex row) col.toNat data).completeOk :=
  if_neg (Nat.not_le_of_lt hcol)

theorem effect_ldmsg_of_ge (row : BitVec 3) {col : BitVec 16} (data : BitVec 8) {s : State}
    (hcol : s.w.toNat ≤ col.toNat) : effect (.ldmsg row col data) s = s.raiseError .range := if_pos hcol

theorem effect_rdmb_of_lt (row : BitVec 3) {col : BitVec 16} {s : State} (hcol : col.toNat < s.w.toNat) :
    effect (.rdmb row col) s = s.complete .ok 0#16 (s.mbByte (rowIndex row) col.toNat) :=
  if_neg (Nat.not_le_of_lt hcol)

theorem effect_rdmb_of_ge (row : BitVec 3) {col : BitVec 16} {s : State} (hcol : s.w.toNat ≤ col.toNat) :
    effect (.rdmb row col) s = s.raiseError .range := if_pos hcol

/-! ## What the two writers leave in `MB` -/

/-- After a NEWMSG that fits, the columns below the new width read zero and the rest of the memory as before (R120). -/
theorem mbByte_effect_newmsg {w : BitVec 16} {s : State} (hw : w.toNat ≤ s.params.wmax) (r : Fin 8) {j : Nat}
    (hj : j < s.params.wmax) :
    (effect (.newmsg w) s).mbByte r j = if j < w.toNat then 0x00#8 else s.mbByte r j :=
  calc (effect (.newmsg w) s).mbByte r j
      = ((s.blankMb w.toNat).withW w).mbByte r j := by rw [effect_newmsg_of_le hw, State.mbByte_completeOk]
    _ = (s.blankMb w.toNat).mbByte r j := State.mbByte_congr rfl rfl rfl r j
    _ = _ := s.mbByte_blankMb hw r hj

/-- After LDMSG to a live column its place reads as the byte stored and every other place of the memory, live or not, as
before (R121). -/
theorem mbByte_effect_ldmsg_of_lt (row : BitVec 3) {col : BitVec 16} (data : BitVec 8) {s : State}
    (hw : s.w.toNat ≤ s.params.wmax) (hcol : col.toNat < s.w.toNat) (r : Fin 8) {j : Nat} (hj : j < s.params.wmax) :
    (effect (.ldmsg row col data) s).mbByte r j =
      if r = rowIndex row ∧ j = col.toNat then data else s.mbByte r j := by
  rw [effect_ldmsg_of_lt row data hcol, State.mbByte_completeOk]
  exact s.mbByte_writeMb (rowIndex row) r data (hcol.trans_le hw) hj

/-! ## The obligations -/

/-- Settles O14: a message that fits is blanked from column 0 on, one that does not is RANGE. -/
theorem newmsgMakesBlankMessage : Obligations.NewmsgMakesBlankMessage := by
  intro s w hidle
  rw [exec_of_idle _ hidle]
  refine ⟨fun hw => ⟨effect (.newmsg w) s, rfl, fun r j hj => ?_, fun r j hge hj => ?_, ?_⟩, fun hw => ?_⟩
  · rw [mbByte_effect_newmsg hw r (hj.trans_le hw), if_pos hj]
  · rw [mbByte_effect_newmsg hw r hj, if_neg (Nat.not_lt_of_le hge)]
  · rw [effect_newmsg_of_le hw]
    exact State.completeOk_frame _
  · rw [effect_newmsg_of_gt hw, State.raiseError_range]

/-- Settles O15: a live column lies in the memory, so LDMSG to it is one byte written; past `W` it is RANGE. -/
theorem ldmsgStoresOneByte : Obligations.LdmsgStoresOneByte := by
  intro s row col data hw hidle
  rw [exec_of_idle _ hidle]
  refine ⟨fun hcol => ⟨effect (.ldmsg row col data) s, rfl, ?_, fun r j hj hother => ?_, ?_⟩, fun hcol => ?_⟩
  · rw [mbByte_effect_ldmsg_of_lt row data hw hcol _ (hcol.trans_le hw), if_pos ⟨rfl, rfl⟩]
  · rw [mbByte_effect_ldmsg_of_lt row data hw hcol r hj, if_neg hother]
  · rw [effect_ldmsg_of_lt row data hcol]
    exact State.completeOk_frame _
  · rw [effect_ldmsg_of_ge row data hcol, State.raiseError_range]

/-- Settles O16: at or beyond `W` the completion is RANGE, below it the byte is returned. -/
theorem rdmbReturnsByteOrRange : Obligations.RdmbReturnsByteOrRange := by
  intro s row col hidle
  rw [exec_of_idle _ hidle]
  by_cases hcol : s.w.toNat ≤ col.toNat
  · rw [if_pos hcol, effect_rdmb_of_ge row hcol, State.raiseError_range]
  · rw [if_neg hcol, effect_rdmb_of_lt row (Nat.lt_of_not_le hcol)]
    rfl

end Sys2Proof.Machine
end

section
/-! PROOFS. The compositor (42_compose.md): the bits of a shift, of a mask and of a splice, the slicing law of R139, and what
COMPOSE leaves in `HB` as bytes and as pixels. -/

namespace Sys2Proof.Machine

/-! ## The bits of shifts and masks -/

theorem getLsbD_shl8 (b : Byte) (k : Nat) {i : Nat} (hi : i < 8) :
    (shl8 b k).getLsbD i = (decide (k ≤ i) && b.getLsbD (i - k)) := by
  rw [shl8, BitVec.getLsbD_shiftLeft, decide_eq_true hi, Bool.true_and]
  simp only [← decide_not, Nat.not_lt]

theorem getLsbD_shr8 (b : Byte) (k i : Nat) : (shr8 b k).getLsbD i = b.getLsbD (k + i) := BitVec.getLsbD_ushiftRight b k i

theorem getLsbD_0xFF {i : Nat} (hi : i < 8) : (0xFF#8).getLsbD i = true := by
  rw [show 0xFF#8 = BitVec.allOnes 8 from rfl, BitVec.getLsbD_allOnes, decide_eq_true hi]

/-- `rightMask(k)` is the low `k` bits (R133). -/
theorem getLsbD_rightMask (k : Nat) {i : Nat} (hi : i < 8) : (rightMask k).getLsbD i = decide (i < k) := by
  rw [rightMask, not8, BitVec.getLsbD_not, getLsbD_shl8 _ k hi, getLsbD_0xFF (by omega), decide_eq_true hi,
    Bool.true_and, Bool.and_true]
  simp only [← decide_not, Nat.not_le]

/-- `leftMask(k)` is the bits from `k` on (R133). -/
theorem getLsbD_leftMask (k : Nat) {i : Nat} (hi : i < 8) : (leftMask k).getLsbD i = decide (k ≤ i) := by
  rw [leftMask, not8, BitVec.getLsbD_not, getLsbD_rightMask k hi, decide_eq_true hi, Bool.true_and]
  simp only [← decide_not, Nat.not_lt]

/-- A left shift by `k` leaves the low `k` bits zero (R138). -/
theorem shl8_and_leftMask (b : Byte) (k : Nat) : shl8 b k &&& leftMask k = shl8 b k := by
  apply BitVec.eq_of_getLsbD_eq
  intro i hi
  rw [BitVec.getLsbD_and, getLsbD_leftMask k hi, getLsbD_shl8 b k hi]
  by_cases h : k ≤ i <;> simp [h]

/-- A logical right shift by `8 − k` leaves at most the low `k` bits (R138). -/
theorem shr8_and_rightMask (b : Byte) (k : Nat) : shr8 b (8 - k) &&& rightMask k = shr8 b (8 - k) := by
  apply BitVec.eq_of_getLsbD_eq
  intro i hi
  rw [BitVec.getLsbD_and, getLsbD_rightMask k hi, getLsbD_shr8]
  by_cases h : i < k
  · simp [h]
  · have hout : 8 ≤ 8 - k + i := by omega
    simp [BitVec.getLsbD_of_ge b _ hout]

/-- The masks cover all eight bits (R137). -/
theorem leftMask_or_rightMask (k : Nat) : leftMask k ||| rightMask k = 0xFF#8 := by
  apply BitVec.eq_of_getLsbD_eq
  intro i hi
  rw [BitVec.getLsbD_or, getLsbD_leftMask k hi, getLsbD_rightMask k hi, getLsbD_0xFF hi]
  by_cases h : k ≤ i
  · simp [h]
  · simp [Nat.lt_of_not_le h]

/-- The masks share no bit (R137). -/
theorem leftMask_and_rightMask (k : Nat) : leftMask k &&& rightMask k = 0x00#8 := by
  apply BitVec.eq_of_getLsbD_eq
  intro i hi
  rw [BitVec.getLsbD_and, getLsbD_leftMask k hi, getLsbD_rightMask k hi]
  by_cases h : k ≤ i <;> simp [h]

/-! ## The bits of a splice -/

/-- From bit `k` on the output byte shows the current source byte, below it the next one (R135). -/
theorem getLsbD_spliceBytes (k : Nat) (cur next : Byte) {i : Nat} (hi : i < 8) :
    (spliceBytes k cur next).getLsbD i = if k ≤ i then cur.getLsbD (i - k) else next.getLsbD (8 - k + i) := by
  rw [spliceBytes, BitVec.getLsbD_or, BitVec.getLsbD_and, BitVec.getLsbD_and, getLsbD_leftMask k hi,
    getLsbD_rightMask k hi, getLsbD_shl8 cur k hi, getLsbD_shr8]
  by_cases h : k ≤ i
  · simp [h]
  · simp [h, Nat.lt_of_not_le h]

/-- A byte-aligned splice copies the current source byte (R135). -/
theorem spliceBytes_zero (cur next : Byte) : spliceBytes 0 cur next = cur := by
  apply BitVec.eq_of_getLsbD_eq
  intro i hi
  rw [getLsbD_spliceBytes 0 cur next hi, if_pos (Nat.zero_le i), Nat.sub_zero]

/-- The stream reads its bits off the zero-filled source bytes: both end at byte column `W` (R56, R132). -/
theorem State.stream_eq_src (s : State) (r : Fin 8) (p : Nat) : s.stream r p = (s.src r (p / 8)).getLsbD (7 - p % 8) := by
  have hlive : p < s.msgBits ↔ p / 8 < s.w.toNat := by
    unfold State.msgBits
    omega
  rw [State.stream, State.src]
  by_cases h : p / 8 < s.w.toNat
  · rw [if_pos (hlive.mpr h), if_pos h]
  · rw [if_neg (hlive.not.mpr h), if_neg h, BitVec.getLsbD_zero]

theorem State.stream_of_ge (s : State) (r : Fin 8) {p : Nat} (hp : s.msgBits ≤ p) : s.stream r p = false :=
  if_neg (Nat.not_lt_of_le hp)

/-- The slicing law (R139): stream position `offset + 8·seg + i` lies in the current source byte where the shifted bit
stays within it, and in the next one where the shift carries it over. -/
theorem State.getLsbD_splice (s : State) (offset : Nat) (r : Fin 8) (seg : Nat) {i : Nat} (hi : i ≤ 7) :
    (s.splice offset r seg).getLsbD (7 - i) = s.stream r (offset + 8 * seg + i) := by
  rw [State.splice, getLsbD_spliceBytes _ _ _ (show 7 - i < 8 by omega), State.stream_eq_src,
    localOffset, startingSegment]
  by_cases hcur : offset % 8 ≤ 7 - i
  · have hbyte : (offset + 8 * seg + i) / 8 = offset / 8 + seg := by omega
    have hbit : 7 - (offset + 8 * seg + i) % 8 = 7 - i - offset % 8 := by omega
    rw [if_pos hcur, hbyte, hbit]
  · have hbyte : (offset + 8 * seg + i) / 8 = offset / 8 + seg + 1 := by omega
    have hbit : 7 - (offset + 8 * seg + i) % 8 = 8 - offset % 8 + (7 - i) := by omega
    rw [if_neg hcur, hbyte, hbit]

theorem State.splice_zero (s : State) (r : Fin 8) (seg : Nat) : s.splice 0 r seg = s.src r seg := by
  rw [State.splice, show localOffset 0 = 0 from rfl, spliceBytes_zero, show startingSegment 0 = 0 from rfl, Nat.zero_add]

/-- Eight offsets further is one segment further (R141). -/
theorem State.splice_add_eight (s : State) (offset : Nat) (r : Fin 8) (seg : Nat) :
    s.splice (offset + 8) r seg = s.splice offset r (seg + 1) := by
  have hk : localOffset (offset + 8) = localOffset offset := Nat.add_mod_right offset 8
  have hss : startingSegment (offset + 8) + seg = startingSegment offset + (seg + 1) := by
    unfold startingSegment
    omega
  rw [State.splice, State.splice, hk, hss]

/-! ## What COMPOSE leaves in `HB`, and its frame -/

/-- After COMPOSE every data byte reads as the splice (R136). -/
theorem hbByte_effect_compose (offset : BitVec 24) (s : State) (r : Fin 8) {c : Nat} (hc : c < s.params.n) :
    (effect (.compose offset) s).hbByte r c = s.splice offset.toNat r c :=
  (State.hbByte_completeOk _ r c).trans (s.hbByte_composeAt _ r hc)

theorem effect_compose_frame (offset : BitVec 24) (s : State) :
    effect (.compose offset) s = { s with
      hb := (effect (.compose offset) s).hb, status := Status.record .ok s.status,
      responses := s.responses ++ [0x00000000#32] } := State.completeOk_frame _

/-- After COMPOSE panel column `x` shows message bit column `offset + x` (R26, R139). -/
theorem pixel_effect_compose (offset : BitVec 24) (s : State) (r : Fin 8) {x : Nat} (hx : x < s.params.columns) :
    (effect (.compose offset) s).pixel r x = s.stream r (offset.toNat + x) := by
  have hx' : offset.toNat + 8 * (x / 8) + x % 8 = offset.toNat + x := by rw [Nat.add_assoc, Nat.div_add_mod]
  rw [State.pixel, hbByte_effect_compose offset s r (segmentOf_lt hx), bitOf, s.getLsbD_splice _ r _ (by omega),
    segmentOf, hx']

/-! ## The obligations -/

/-- Settles O20: every bit is under one of the masks, and none under both. -/
theorem masksAreComplementary : Obligations.MasksAreComplementary := fun k _ =>
  ⟨leftMask_or_rightMask k, leftMask_and_rightMask k⟩

/-- Settles O21: each shift leaves only bits of its mask, so the terms are disjoint because the masks are. -/
theorem masksAreRedundant : Obligations.MasksAreRedundant := by
  intro b b' k _
  refine ⟨shl8_and_leftMask b k, shr8_and_rightMask b k, ?_⟩
  calc shl8 b k &&& shr8 b' (8 - k)
      = (shl8 b k &&& leftMask k) &&& (shr8 b' (8 - k) &&& rightMask k) := by
        rw [shl8_and_leftMask, shr8_and_rightMask]
    _ = (shl8 b k &&& shr8 b' (8 - k)) &&& (leftMask k &&& rightMask k) := by ac_rfl
    _ = 0x00#8 := by rw [leftMask_and_rightMask, BitVec.and_zero]

/-- Settles O22: the slicing law, bit by bit. -/
theorem spliceSlicesTheStream : Obligations.SpliceSlicesTheStream := fun s offset r seg _ hi =>
  s.getLsbD_splice offset r seg hi

/-- Settles O19: COMPOSE is the splice in every data byte, and column `N` is computed in every state. -/
theorem composeWritesSplice : Obligations.ComposeWritesSplice := by
  intro s offset hidle k ss src
  exact ⟨effect (.compose offset) s, exec_of_idle _ hidle, fun r _ hc => hbByte_effect_compose offset s r hc,
    State.hbByte_rowSelect _, effect_compose_frame offset s⟩

/-- Settles O23: the slicing law at the segment and bit of a panel column; the stream is dark beyond the message. -/
theorem composedPanelShowsMessage : Obligations.ComposedPanelShowsMessage := by
  intro s t offset hexec r x hx
  obtain ⟨-, rfl⟩ := (exec_next_iff _ _ _).mp hexec
  have hpixel := pixel_effect_compose offset s r hx
  exact ⟨hpixel, fun hdark => hpixel.trans (s.stream_of_ge r hdark)⟩

/-- Settles O24: at offset 0 the splice is the zero-filled source byte. -/
theorem composeZeroIsIdentity : Obligations.ComposeZeroIsIdentity := by
  intro s hidle
  refine ⟨effect (.compose 0#24) s, exec_of_idle _ hidle, fun r c hc => ?_⟩
  exact (hbByte_effect_compose 0#24 s r hc).trans (s.splice_zero r c)

/-- Settles O25: one offset further every pixel reads the next stream position; eight further the splice moves one
segment. -/
theorem successiveOffsetsShiftLeft : Obligations.SuccessiveOffsetsShiftLeft := by
  intro s t u v o o1 o8 hp h1 h8 ht hu hv
  obtain ⟨-, rfl⟩ := (exec_next_iff _ _ _).mp ht
  obtain ⟨-, rfl⟩ := (exec_next_iff _ _ _).mp hu
  obtain ⟨-, rfl⟩ := (exec_next_iff _ _ _).mp hv
  refine ⟨fun r x hx => ?_, fun r => ?_, fun r c hc => ?_⟩
  · rw [pixel_effect_compose o1 s r (Nat.lt_of_succ_lt hx), pixel_effect_compose o s r hx, h1, Nat.add_right_comm,
      Nat.add_assoc]
  · have hcolumns : 0 < s.params.columns := Nat.mul_pos (by decide) hp.1
    have hlast : o.toNat + 1 + (s.params.columns - 1) = o.toNat + s.params.columns := by omega
    rw [pixel_effect_compose o1 s r (Nat.sub_one_lt_of_lt hcolumns), h1, hlast]
  · rw [hbByte_effect_compose o8 s r (Nat.lt_of_succ_lt hc), hbByte_effect_compose o s r hc, h8, State.splice_add_eight]

/-- Settles O26: a data byte is the splice, which reads nothing of `HB`; column `N` is the row-select byte of any state. -/
theorem composeIgnoresOldBuffer : Obligations.ComposeIgnoresOldBuffer := by
  intro s t u m offset ht hu r c hc
  obtain ⟨-, rfl⟩ := (exec_next_iff _ _ _).mp ht
  obtain ⟨-, rfl⟩ := (exec_next_iff _ _ _).mp hu
  rcases Nat.lt_or_eq_of_le hc with hdata | rfl
  · have hsplice : State.splice { s with hb := m } = s.splice := State.splice_congr rfl rfl rfl rfl
    rw [hbByte_effect_compose offset s r hdata, hbByte_effect_compose offset { s with hb := m } r hdata, hsplice]
  · exact (State.hbByte_rowSelect _ r).trans (State.hbByte_rowSelect _ r).symm

end Sys2Proof.Machine
end

section
/-! PROOFS. The transmitter (43_transmit.md) and where a command that transmits stops (44_display_scroll.md): a frame sent
whole, a frame cut at the first answer that is not `ok`, what of it reached the device, and the stall that only reset
ends. -/

namespace Sys2Proof.Machine

/-! ## One frame -/

/-- A TX_FAIL completion writes STATUS and one response, the same for every command (60_exceptions.md R187). -/
theorem State.raiseError_txFail (s : State) :
    s.raiseError .txFail = { s with
      status := Status.record .txFail s.status, responses := s.responses ++ [0x10000000#32] } := rfl

/-- The record of a frame cut at `row`, whose write was answered `a`: the rows before it taken, no row after it
(R153, R156). -/
def cutFrame (f : Fin 8 → List Byte) (row : Fin 8) (a : LinkAnswer) : List RowWrite :=
  (allRows.take row.val).map (sentRow f) ++ [{ bytes := f row, answer := a }]

@[simp] theorem cutFrame_length (f : Fin 8 → List Byte) (row : Fin 8) (a : LinkAnswer) :
    (cutFrame f row a).length = row.val + 1 := by
  simp [cutFrame, row.isLt.le]

theorem effect_xmit_of_ok {s : State} (h : ∀ j < 8, s.link.answerAt j = .ok) :
    effect .xmit s = (s.withLink (s.link.after 8 (allRows.map (sentRow s.rowBytes)))).completeOk := by
  simp only [effect, s.transmit_of_ok h, State.finish_done]

theorem effect_xmit_of_stop {s : State} {row : Fin 8} {a : LinkAnswer} (h : ∀ j < row.val, s.link.answerAt j = .ok)
    (ha : s.link.answerAt row.val = a) (hstop : a ≠ .ok) :
    effect .xmit s =
      (s.withLink (s.link.after (row.val + 1) (cutFrame s.rowBytes row a))).finish none (resultAt row a) := by
  subst ha
  simp only [effect, s.transmit_of_stop row h hstop, cutFrame]

/-- On a message that is not empty DISPLAY transmits the composed frame (44_display_scroll.md R160). -/
theorem effect_display_of_w_ne_zero (offset : BitVec 24) {s : State} (hw : s.w ≠ 0#16) :
    effect (.display offset) s = effect .xmit (s.composeAt offset.toNat) := if_neg hw

/-! ## What of a frame reached the device -/

/-- A row the link took reached the device whole, wherever it stands in the record (R151). -/
theorem received_sentRow (f : Fin 8 → List Byte) (r : Fin 8) (k : Nat) : (sentRow f r).received k = f r := rfl

theorem received_sentRows (f : Fin 8 → List Byte) (rows : List (Fin 8)) (n : Nat) :
    ((rows.map (sentRow f)).zipIdx n).map (fun (write, k) => write.received k) = rows.map f := by
  induction rows generalizing n with
  | nil => rfl
  | cons r rest ih => simp only [List.map_cons, List.zipIdx_cons, received_sentRow, ih]

/-- What the device received of further writes stands behind what it had. -/
theorem Link.received_after (l : Link) (k : Nat) (writes : List RowWrite) :
    (l.after k writes).received =
      l.received ++ (writes.zipIdx l.log.length).map fun (write, k) => write.received k := by
  simp [Link.received, List.zipIdx_append]

/-- Of a frame that failed at `row` the device received the rows before it and a first part of `row` (R153). -/
theorem Link.received_after_cutFrame_error (l : Link) (k : Nat) (f : Fin 8 → List Byte) (row : Fin 8) :
    ∃ part, part <+: f row ∧
      (l.after k (cutFrame f row .error)).received = l.received ++ (allRows.take row.val).map f ++ [part] := by
  refine ⟨(f row).take (Config.deliveredBytes (l.log.length + (allRows.take row.val).length)),
    ⟨_, List.take_append_drop _ _⟩, ?_⟩
  rw [Link.received_after, cutFrame, List.zipIdx_append, List.map_append, received_sentRows, List.length_map,
    List.append_assoc]
  rfl

/-! ## A step that takes nothing -/

theorem step_of_host_nil {s : State} (h : s.host = []) : step s = .next s := by
  simp only [step, State.fetch, h]

theorem State.exists_executing_of_busy {s : State} (h : s.busy = true) : ∃ off row, s.engine = .executing off row := by
  cases hengine : s.engine with
  | idle => simp [s.busy_eq_false.mpr hengine] at h
  | executing off row => exact ⟨off, row, rfl⟩

/-- A state that steps to itself runs on for ever. -/
theorem safeRun_of_step_self {s : State} (h : step s = .next s) (k : Nat) : SafeRun k s s := by
  induction k with
  | zero => rfl
  | succ k ih =>
    have hstep : core.step s = .next s := h
    simp only [SafeRun, Host.Core.run, hstep]
    exact ih

/-! ## Who writes the link -/

/-- No instruction but the three that transmit touches the link (20_memory.md R53). -/
theorem effect_link {i : Instr} (hxmit : i ≠ .xmit) (hdisplay : ∀ o, i ≠ .display o) (hscroll : ∀ o, i ≠ .scroll o)
    (s : State) : (effect i s).link = s.link := by
  cases i with
  | xmit => exact absurd rfl hxmit
  | display o => exact absurd rfl (hdisplay o)
  | scroll o => exact absurd rfl (hscroll o)
  | ldmsg row col data => rw [effect_ldmsg_frame]
  | newmsg w => rw [effect_newmsg_frame]
  | rdhb row col => simp only [effect]; split <;> rfl
  | rdmb row col => simp only [effect]; split <;> rfl
  | _ => rfl

/-! ## A sweep that stops -/

/-- On a message that is not empty a SCROLL whose frame `m` is stopped at `row` ends as that transmission does, with `m`
whole frames recorded before it and that frame whole in `HB` (44_display_scroll.md R161, R166). -/
theorem effect_scroll_of_stop (start : BitVec 24) {s : State} {m : Nat} {row : Fin 8} {a : LinkAnswer} (hw : s.w ≠ 0#16)
    (hm : m < max 1 (8 * s.w.toNat - 8 * s.params.n - start.toNat))
    (h : ∀ j < 8 * m + row.val, s.link.answerAt j = .ok) (ha : s.link.answerAt (8 * m + row.val) = a) (hstop : a ≠ .ok) :
    ∃ t : State, effect (.scroll start) s = t.finish (some (start.toNat + m)) (resultAt row a) ∧
      (∀ r c, c < s.params.n → t.hbByte r c = s.splice (start.toNat + m) r c) ∧
      t = { s with
        hb := t.hb,
        link := s.link.after (8 * m + row.val + 1)
          (s.sweptWrites m start.toNat ++ cutFrame (s.composedRow (start.toNat + m)) row a) } := by
  subst ha
  rw [← sweepFrames_eq] at hm
  obtain ⟨t, hsweep, hframe, hbytes⟩ := s.sweep_of_stop _ start.toNat m row hm h hstop
  rw [List.append_assoc] at hframe
  refine ⟨t, ?_, hbytes, hframe⟩
  simp only [effect, if_neg hw, hsweep]

/-! ## The obligations -/

/-- Settles O27: a row is the data bytes and then the row-select byte. -/
theorem xmitSendsOneFrame : Obligations.XmitSendsOneFrame := by
  intro s hidle hok
  have hrows : sentRow s.rowBytes = fun r =>
      ⟨(List.range s.params.n).map (s.hbByte r) ++ [shl8 1#8 (7 - r.val)], .ok⟩ := by
    funext r
    rw [sentRow, s.rowBytes_eq, rowSelect]
  rw [exec_of_idle _ hidle, effect_xmit_of_ok hok, hrows]
  rfl

/-- Settles O28: a transmission stopped by `error` raises TX_FAIL. -/
theorem xmitStopsAtFirstError : Obligations.XmitStopsAtFirstError := by
  intro s k hidle hok herror
  rw [exec_of_idle _ hidle, effect_xmit_of_stop hok herror (by decide), resultAt_error, State.finish_failed,
    State.raiseError_txFail]
  rfl

/-- Settles O29: a transmission stopped by `never` writes the engine in place of a completion. -/
theorem xmitStallsAtUnansweredRow : Obligations.XmitStallsAtUnansweredRow := by
  intro s k hidle hok hnever
  rw [exec_of_idle _ hidle, effect_xmit_of_stop hok hnever (by decide), resultAt_never, State.finish_stalled]
  rfl

/-- Settles O30: such a state steps to itself, with nothing to take or with a word that a blocked engine does not take. -/
theorem onlyResetEndsAStall : Obligations.OnlyResetEndsAStall := by
  intro s k hbusy hhost
  refine safeRun_of_step_self ?_ k
  rcases hhost with hnone | ⟨cw, rest, hcommand⟩
  · exact step_of_host_nil hnone
  · obtain ⟨off, row, hexecuting⟩ := State.exists_executing_of_busy hbusy
    exact step_command_of_executing hexecuting hcommand

/-- Settles O31: the record is the cut frame's, of which the device received its last row in part. -/
theorem failedFrameReachesDeviceInPart : Obligations.FailedFrameReachesDeviceInPart := by
  intro s t k hexec hok herror
  obtain ⟨-, rfl⟩ := (exec_next_iff _ _ _).mp hexec
  rw [effect_xmit_of_stop hok herror (by decide), State.finish_link]
  exact s.link.received_after_cutFrame_error (k.val + 1) s.rowBytes k

/-- Settles O32, by the effects' frames and the step that takes nothing. -/
theorem onlyTransmittersIssueRowWrites : Obligations.OnlyTransmittersIssueRowWrites := by
  refine ⟨fun i s t hexec hxmit hdisplay hscroll => ?_, fun s hhost => step_of_host_nil hhost⟩
  obtain ⟨-, rfl⟩ := (exec_next_iff _ _ _).mp hexec
  exact effect_link hxmit hdisplay hscroll s

/-- Settles O36: the frame is composed whole before the first row is sent, and a transmission does not write `HB`. -/
theorem displayFailureKeepsFrame : Obligations.DisplayFailureKeepsFrame := by
  intro s offset k hidle hw hok herror
  have heffect := (effect_display_of_w_ne_zero offset hw).trans
    (effect_xmit_of_stop (s := s.composeAt offset.toNat) hok herror (by decide))
  rw [resultAt_error, State.finish_failed, State.raiseError_txFail] at heffect
  refine ⟨_, (exec_of_idle _ hidle).trans (congrArg _ heffect), fun r c hc => ?_, rfl⟩
  exact (State.hbByte_congr rfl rfl rfl r c).trans (s.hbByte_composeAt offset.toNat r hc)

/-- Settles O40: a sweep stopped by `never` writes the engine in place of a completion. -/
theorem scrollStallKeepsCounters : Obligations.ScrollStallKeepsCounters := by
  intro s start m k hidle hw hm hok hnever
  obtain ⟨t, heffect, -, hframe⟩ := effect_scroll_of_stop start hw hm hok hnever (by decide)
  rw [resultAt_never, State.finish_stalled] at heffect
  refine ⟨_, (exec_of_idle _ hidle).trans (congrArg _ heffect), rfl, ?_, ?_⟩
  · rw [hframe]
    simp [Nat.add_assoc]
  · rw [hframe]
    exact ⟨rfl, rfl, rfl, rfl⟩

end Sys2Proof.Machine
end

section
/-! PROOFS. Display and scroll (44_display_scroll.md): DISPLAY is COMPOSE and then XMIT, and SCROLL is a sweep of such
frames, which sends them all, or stops at the first answer that is not `ok`, as the host's own loop of DISPLAYs does. -/

namespace Sys2Proof.Machine

/-! ## An empty message -/

theorem effect_display_of_w_eq_zero (offset : BitVec 24) {s : State} (hw : s.w = 0#16) :
    effect (.display offset) s = s.completeOk := if_pos hw

theorem effect_scroll_of_w_eq_zero (start : BitVec 24) {s : State} (hw : s.w = 0#16) :
    effect (.scroll start) s = s.completeOk := if_pos hw

/-! ## A completion before a transmission -/

/-- OK raises no flag, so what is recorded after it is recorded as if it had not been (60_exceptions.md R190). -/
theorem Status.record_record_ok (code : Code) (st : BitVec 8) :
    Status.record code (Status.record .ok st) = Status.record code st := by
  have hlow : Status.record .ok st &&& 0x0F#8 = st &&& 0x0F#8 := by
    apply BitVec.eq_of_getLsbD_eq
    intro i hi
    interval_cases i <;> simp [Status.record, Code.bits, Code.sticky]
  rw [Status.record, hlow, ← Status.record]

/-- A transmission reads neither STATUS nor the responses (R152). -/
theorem State.transmit_completeOk (s : State) :
    s.completeOk.transmit = (s.transmit.1.completeOk, s.transmit.2) := rfl

/-- A transmission after an OK completion ends as it would without it, but for STATUS and the responses (R160). -/
theorem effect_xmit_completeOk (s : State) :
    effect .xmit s.completeOk = { effect .xmit s with
      status := (effect .xmit s.completeOk).status, responses := (effect .xmit s.completeOk).responses } := by
  simp only [effect, State.transmit_completeOk]
  cases s.transmit.2 <;> rfl

/-- Where the transmission ended, STATUS is the same too. -/
theorem status_effect_xmit_completeOk {s : State} (h : (effect .xmit s.completeOk).engine = .idle) :
    (effect .xmit s).status = (effect .xmit s.completeOk).status := by
  simp only [effect, State.transmit_completeOk] at h ⊢
  cases hresult : s.transmit.2 with
  | done => exact (Status.record_record_ok .ok s.status).symm
  | failed => exact (Status.record_record_ok .txFail s.status).symm
  | stalled row => simp [hresult] at h

/-! ## What a sweep leaves -/

/-- On a message that is not empty SCROLL sweeps the frames of R164 and ends as the last transmission did (R161). -/
theorem effect_scroll_of_w_ne_zero (start : BitVec 24) {s : State} (hw : s.w ≠ 0#16) :
    effect (.scroll start) s =
      (s.sweep (sweepFrames s.params s.w start.toNat) start.toNat).1.finish
        (some (s.sweep (sweepFrames s.params s.w start.toNat) start.toNat).2.2)
        (s.sweep (sweepFrames s.params s.w start.toNat) start.toNat).2.1 := if_neg hw

/-- On a message that is not empty a SCROLL whose answers are all `ok` records every frame and keeps the last one in `HB`
(R161, R164). -/
theorem effect_scroll_of_ok (start : BitVec 24) {s : State} (hw : s.w ≠ 0#16)
    (h : ∀ j < 8 * sweepFrames s.params s.w start.toNat, s.link.answerAt j = .ok) :
    ∃ t : State, effect (.scroll start) s = t.completeOk ∧
      (∀ r c, c < s.params.n →
        t.hbByte r c = s.splice (start.toNat + sweepFrames s.params s.w start.toNat - 1) r c) ∧
      t = { s with
        hb := t.hb,
        link := s.link.after (8 * sweepFrames s.params s.w start.toNat)
          (s.sweptWrites (sweepFrames s.params s.w start.toNat) start.toNat) } := by
  obtain ⟨t, hsweep, hframe, hbytes⟩ := s.sweep_of_ok _ start.toNat h
  refine ⟨t, ?_, hbytes (sweepFrames_pos _ _ _), hframe⟩
  rw [effect_scroll_of_w_ne_zero start hw, hsweep, State.finish_done]

/-- A buffer whose data bytes are the splice is sent as the composed frame (R54, R136). -/
theorem State.rowBytes_of_splice {s t : State} {off : Nat} (hp : t.params = s.params)
    (h : ∀ r c, c < s.params.n → t.hbByte r c = s.splice off r c) : t.rowBytes = s.composedRow off := by
  funext r
  rw [State.rowBytes_eq, State.composedRow, hp]
  exact congrArg (· ++ [rowSelect r]) (List.map_congr_left fun c hc => h r c (List.mem_range.mp hc))

/-! ## The host's loop of DISPLAYs -/

theorem State.finish_mb (s : State) (off : Option Nat) (result : TxResult) : (s.finish off result).mb = s.mb := by
  rw [State.finish_frame]

theorem State.finish_w (s : State) (off : Option Nat) (result : TxResult) : (s.finish off result).w = s.w := by
  rw [State.finish_frame]

/-- Whether a transmission is blocked on a row write that is never answered (43_transmit.md R156). -/
def TxResult.isStalled : TxResult → Bool
  | .done => false
  | .failed => false
  | .stalled _ => true

/-- A command that transmitted leaves the engine busy exactly where it stalled. -/
theorem State.busy_finish {s : State} (hidle : s.engine = .idle) (off : Option Nat) (result : TxResult) :
    (s.finish off result).busy = result.isStalled := by
  cases result with
  | done => exact s.completeOk.busy_eq_false.mpr hidle
  | failed => exact (s.raiseError .txFail).busy_eq_false.mpr hidle
  | stalled row => rfl

/-- A command that transmitted completed OK exactly where every row was taken (R150, R153, R156). -/
theorem State.completedOk_finish {s : State} (hidle : s.engine = .idle) (off : Option Nat) (result : TxResult) :
    (s.finish off result).completedOk = decide (result = .done) := by
  rw [State.completedOk, State.busy_finish hidle]
  cases result with
  | done => simp [TxResult.isStalled, Status.last_record]
  | failed => simp [TxResult.isStalled, Status.last_record, Code.bits]
  | stalled row => simp [TxResult.isStalled]

/-- The host's loop goes on while a DISPLAY completes OK, and is cut after the first that does not (R167). -/
theorem displaysUntilFailure_succ (frames : Nat) {off : Nat} {s : State} (hidle : s.engine = .idle) (hw : s.w ≠ 0#16)
    (hoff : off < 2 ^ 24) :
    displaysUntilFailure (frames + 1) off s =
      if (s.composeAt off).transmit.2 = .done then
        displaysUntilFailure frames (off + 1) (s.composeAt off).transmit.1.completeOk
      else some ((s.composeAt off).transmit.1.finish none (s.composeAt off).transmit.2) := by
  have heffect : effect (.display (BitVec.ofNat 24 off)) s =
      (s.composeAt off).transmit.1.finish none (s.composeAt off).transmit.2 := by
    rw [effect_display_of_w_ne_zero _ hw, BitVec.toNat_ofNat, Nat.mod_eq_of_lt hoff, effect]
  have hok := State.completedOk_finish (s := (s.composeAt off).transmit.1) hidle none (s.composeAt off).transmit.2
  simp only [displaysUntilFailure, exec_of_idle _ hidle, heffect, hok]
  by_cases hdone : (s.composeAt off).transmit.2 = .done
  · simp only [hdone, decide_true, if_true, State.finish_done]
  · simp only [hdone, decide_false, if_false]

/-- The loop of DISPLAYs leaves what the sweep of the same frames leaves, as long as the offsets fit the field (R167). -/
theorem displaysUntilFailure_eq_sweep (frames : Nat) {off : Nat} {s : State} (hidle : s.engine = .idle)
    (hw : s.w ≠ 0#16) (hoff : off + frames ≤ 2 ^ 24) :
    ∃ u, displaysUntilFailure frames off s = some u ∧ u.link = (s.sweep frames off).1.link ∧
      u.hb = (s.sweep frames off).1.hb ∧ u.mb = s.mb ∧ u.w = s.w ∧ u.busy = (s.sweep frames off).2.1.isStalled := by
  induction frames generalizing off s with
  | zero => exact ⟨s, rfl, rfl, rfl, rfl, rfl, s.busy_eq_false.mpr hidle⟩
  | succ frames ih =>
    rw [displaysUntilFailure_succ frames hidle hw (by omega)]
    by_cases hdone : (s.composeAt off).transmit.2 = .done
    · rw [if_pos hdone, State.sweep_succ_of_done _ _ _ hdone]
      obtain ⟨u, hrun, hlink, hhb, hmb, hwu, hbusy⟩ :=
        ih (off := off + 1) (s := (s.composeAt off).transmit.1.completeOk) hidle hw (by omega)
      obtain ⟨hhb', hlink', hresult⟩ := State.sweep_congr frames (off + 1) (s.composeAt off).transmit.1
        (s.composeAt off).transmit.1.completeOk rfl rfl rfl rfl rfl rfl
      exact ⟨u, hrun, hlink.trans hlink', hhb.trans hhb', hmb, hwu, by rw [hbusy, hresult]⟩
    · rw [if_neg hdone, State.sweep_succ_of_stop _ _ _ hdone]
      exact ⟨_, rfl, State.finish_link _ _ _, State.finish_hb _ _ _, State.finish_mb _ _ _, State.finish_w _ _ _,
        State.busy_finish (s := (s.composeAt off).transmit.1) hidle _ _⟩

/-! ## The obligations -/

/-- Settles O33: the frame that is transmitted is the composed one. -/
theorem displayComposesThenSends : Obligations.DisplayComposesThenSends := by
  intro s offset hidle hw hok
  have heffect := (effect_display_of_w_ne_zero offset hw).trans (effect_xmit_of_ok (s := s.composeAt offset.toNat) hok)
  rw [State.rowBytes_composeAt_eq, State.completeOk_frame] at heffect
  refine ⟨_, (exec_of_idle _ hidle).trans (congrArg _ heffect), fun r c hc => ?_, rfl⟩
  exact (State.hbByte_congr rfl rfl rfl r c).trans (s.hbByte_composeAt offset.toNat r hc)

/-- Settles O34: COMPOSE adds to DISPLAY's own compositing step a completion, which XMIT does not read. -/
theorem displayIsComposeThenXmit : Obligations.DisplayIsComposeThenXmit := by
  intro s offset hidle hw
  have hv := effect_xmit_completeOk (s.composeAt offset.toNat)
  have hstatus := status_effect_xmit_completeOk (s := s.composeAt offset.toNat)
  refine ⟨_, (s.composeAt offset.toNat).completeOk, _, exec_of_idle _ hidle, exec_of_idle _ hidle,
    exec_of_idle _ (show (s.composeAt offset.toNat).completeOk.engine = .idle from hidle), ?_⟩
  rw [effect_display_of_w_ne_zero offset hw]
  refine ⟨?_, ?_, ?_, ?_, ?_, ?_, ?_, hstatus⟩ <;> rw [hv]

/-- Settles O35: an empty message only completes. -/
theorem emptyMessageSendsNothing : Obligations.EmptyMessageSendsNothing := by
  intro s offset hidle hw
  rw [exec_of_idle _ hidle, exec_of_idle _ hidle, effect_display_of_w_eq_zero offset hw,
    effect_scroll_of_w_eq_zero offset hw, State.completeOk_frame]
  exact ⟨rfl, rfl⟩

/-- Settles O37: a sweep that nothing stops. -/
theorem scrollSendsEveryFrame : Obligations.ScrollSendsEveryFrame := by
  intro s start hidle hw frames hok
  have hframes : sweepFrames s.params s.w start.toNat = frames := sweepFrames_eq _ _ _
  obtain ⟨t, heffect, hbytes, hframe⟩ := effect_scroll_of_ok start hw (by rwa [hframes])
  rw [hframes] at hbytes hframe
  refine ⟨t.completeOk, (exec_of_idle _ hidle).trans (congrArg _ heffect),
    fun r c hc => (t.hbByte_completeOk r c).trans (hbytes r c hc), ?_⟩
  rw [hframe]
  rfl

/-- Settles O38: the offset behind the last frame fits, and the number of frames is the same counted in integers. -/
theorem sweepOffsetsFitTheField : Obligations.SweepOffsetsFitTheField := by
  intro p w start _ bound last
  have hfit := add_sweepFrames_le p w start
  rw [sweepFrames_eq] at hfit ⊢
  omega

/-- Settles O39: a sweep stopped by `error` raises TX_FAIL, with the frame it was sending whole in `HB`. -/
theorem scrollStopsAtFirstError : Obligations.ScrollStopsAtFirstError := by
  intro s start m k hidle hw hm hok herror
  obtain ⟨t, heffect, hbytes, hframe⟩ := effect_scroll_of_stop start hw hm hok herror (by decide)
  rw [resultAt_error, State.finish_failed] at heffect
  have hp : (t.raiseError .txFail).params = s.params := by rw [State.raiseError_txFail, hframe]
  have hbytes' : ∀ r c, c < s.params.n → (t.raiseError .txFail).hbByte r c = s.splice (start.toNat + m) r c :=
    fun r c hc => (State.hbByte_congr rfl rfl rfl r c).trans (hbytes r c hc)
  refine ⟨_, (exec_of_idle _ hidle).trans (congrArg _ heffect), hbytes', ?_⟩
  rw [State.rowBytes_of_splice hp hbytes', State.raiseError_txFail, hframe]
  rfl

/-- Settles O41: frame by frame the sweep does what the DISPLAYs do, and both end at the same answer. -/
theorem scrollEqualsDisplaySequence : Obligations.ScrollEqualsDisplaySequence := by
  intro s start _ hidle hw
  rw [← sweepFrames_eq]
  obtain ⟨u, hrun, hlink, hhb, hmb, hwu, hbusy⟩ :=
    displaysUntilFailure_eq_sweep _ hidle hw (add_sweepFrames_le s.params s.w start)
  refine ⟨_, u, exec_of_idle _ hidle, hrun, ?_⟩
  rw [hlink, hhb, hmb, hwu, hbusy]
  have hswept : (s.sweep (sweepFrames s.params s.w start.toNat) start.toNat).1.engine = .idle := by
    rw [State.sweep_frame]
    exact hidle
  refine ⟨?_, ?_, effect_mb (by simp) (by simp) s, effect_w (by simp) s, ?_⟩ <;> rw [effect_scroll_of_w_ne_zero start hw]
  · exact State.finish_link _ _ _
  · exact State.finish_hb _ _ _
  · exact State.busy_finish hswept _ _

end Sys2Proof.Machine
end

section
/-! PROOFS. The system commands (45_system.md): NOP and CLRF complete OK and so write STATUS, RDST and RDCFG return a value
and do not, and none of the four writes any other field of the state. -/

namespace Sys2Proof.Machine

/-! ## STATUS by its fields (10_state.md R30) -/

/-- STATUS has no bit outside its four fields. -/
theorem Status.ext_fields {st st' : BitVec 8} (htxf : Status.txf st = Status.txf st')
    (hcmdf : Status.cmdf st = Status.cmdf st') (hreserved : st.extractLsb' 2 2 = st'.extractLsb' 2 2)
    (hlast : Status.last st = Status.last st') : st = st' := by
  have hreservedBit (i : Nat) := congrArg (·.getLsbD i) hreserved
  have hlastBit (i : Nat) := congrArg (·.getLsbD i) hlast
  simp only [Status.last, BitVec.getLsbD_extractLsb'] at hreservedBit hlastBit
  apply BitVec.eq_of_getLsbD_eq
  intro i hi
  interval_cases i
  · exact htxf
  · exact hcmdf
  · exact hreservedBit 0
  · exact hreservedBit 1
  · exact hlastBit 0
  · exact hlastBit 1
  · exact hlastBit 2
  · exact hlastBit 3

/-- CLRF's completion leaves every field of STATUS zero where the reserved bits were (45_system.md R176). -/
theorem Status.record_ok_clearSticky {st : BitVec 8} (h : st.extractLsb' 2 2 = 0#2) :
    Status.record .ok (Status.clearSticky st) = 0x00#8 := by
  apply Status.ext_fields
  · rw [Status.txf_record, Status.txf_clearSticky]
    rfl
  · rw [Status.cmdf_record, Status.cmdf_clearSticky]
    rfl
  · rw [Status.reserved_record, Status.reserved_clearSticky, h]
    rfl
  · rw [Status.last_record]
    rfl

/-- STATUS is read with its reserved bits 0. -/
theorem Status.reserved_read (st : BitVec 8) : (Status.read st).extractLsb' 2 2 = 0#2 := by
  apply BitVec.eq_of_getLsbD_eq
  intro i hi
  interval_cases i <;> simp [Status.read]

/-- STATUS is read as it stands where its reserved bits are 0. -/
theorem Status.read_of_reserved {st : BitVec 8} (h : st.extractLsb' 2 2 = 0#2) : Status.read st = st := by
  apply Status.ext_fields
  · simp [Status.txf, Status.read]
  · simp [Status.cmdf, Status.read]
  · rw [Status.reserved_read, h]
  · apply BitVec.eq_of_getLsbD_eq
    intro i hi
    interval_cases i <;> simp [Status.last, Status.read]

/-! ## The response word by its fields (30_encoding.md R92) -/

theorem data_responseWord (code : Code) (aux : BitVec 16) (data : BitVec 8) :
    (responseWord code aux data).extractLsb' 0 8 = data := BitVec.extractLsb'_append_eq_right

theorem aux_responseWord (code : Code) (aux : BitVec 16) (data : BitVec 8) :
    (responseWord code aux data).extractLsb' 8 16 = aux :=
  (BitVec.extractLsb'_append_eq_of_le (Nat.le_refl 8)).trans BitVec.extractLsb'_append_eq_right

theorem code_responseWord (code : Code) (aux : BitVec 16) (data : BitVec 8) :
    (responseWord code aux data).extractLsb' 24 8 = code.bits ++ 0#4 := by
  rw [responseWord, BitVec.extractLsb'_append_eq_of_le (by decide), BitVec.extractLsb'_append_eq_left]

/-- An OK response, as a number, is `aux` above `data`. -/
theorem toNat_responseWord_ok (aux : BitVec 16) (data : BitVec 8) :
    (responseWord .ok aux data).toNat = aux.toNat * 256 + data.toNat := by
  have hok : Code.ok.bits ++ 0#4 = 0#8 := rfl
  rw [responseWord, hok, BitVec.toNat_append, ← Nat.shiftLeft_add_eq_or_of_lt data.isLt, BitVec.toNat_append]
  simp [Nat.shiftLeft_eq]

/-! ## What the four commands leave -/

/-- A completion that only reads writes one response (60_exceptions.md R190). -/
theorem State.completeRead_frame (s : State) (aux : BitVec 16) (data : BitVec 8) :
    s.completeRead aux data = { s with responses := s.responses ++ [responseWord .ok aux data] } := rfl

/-- A system command writes STATUS and the responses alone (45_system.md R178). -/
theorem effect_system_frame {i : Instr} (hi : i = .nop ∨ i = .clrf ∨ i = .rdst ∨ i = .rdcfg) (s : State) :
    effect i s = { s with status := (effect i s).status, responses := (effect i s).responses } := by
  rcases hi with rfl | rfl | rfl | rfl
  · exact s.completeOk_frame
  · exact (s.withStatus (Status.clearSticky s.status)).completeOk_frame
  · exact s.completeRead_frame s.w (Status.read s.status)
  · exact s.completeRead_frame _ _

/-! ## The obligations -/

/-- Settles O42: NOP's effect is an OK completion, which records LAST and raises no flag. -/
theorem nopOnlyCompletes : Obligations.NopOnlyCompletes := by
  intro s hidle
  refine ⟨(exec_of_idle .nop hidle).trans (congrArg _ s.completeOk_frame), Status.last_record .ok _, ?_, ?_⟩
  · rw [Status.txf_record]
    simp
  · rw [Status.cmdf_record]
    simp

/-- Settles O43: the flags are cleared, the completion records OK, and the reserved bits were zero before. -/
theorem clrfZeroesStatus : Obligations.ClrfZeroesStatus := by
  intro s hidle hreserved
  rw [exec_of_idle .clrf hidle, ← Status.record_ok_clearSticky hreserved]
  exact congrArg _ (s.withStatus (Status.clearSticky s.status)).completeOk_frame

/-- Settles O44, field by field of the response. -/
theorem rdstReturnsStatusAndWidth : Obligations.RdstReturnsStatusAndWidth := by
  intro s hidle
  have hdata : (responseWord .ok s.w (Status.read s.status)).extractLsb' 0 8 = Status.read s.status :=
    data_responseWord _ _ _
  refine ⟨responseWord .ok s.w (Status.read s.status), exec_of_idle .rdst hidle, code_responseWord _ _ _,
    aux_responseWord _ _ _, ?_, fun hreserved => hdata.trans (Status.read_of_reserved hreserved)⟩
  rw [← BitVec.extractLsb'_extractLsb'_of_le (start := 2) (len := 2) (len' := 8) (by decide), hdata]
  exact Status.reserved_read s.status

/-- Settles O45: parameters in their ranges fit `aux` and `data`. -/
theorem rdcfgReturnsParameters : Obligations.RdcfgReturnsParameters := by
  intro s hp hidle
  obtain ⟨-, hn, -, hwmax⟩ := hp
  refine ⟨_, exec_of_idle .rdcfg hidle, ?_⟩
  rw [toNat_responseWord_ok, BitVec.toNat_ofNat, BitVec.toNat_ofNat, Nat.mod_eq_of_lt (by omega),
    Nat.mod_eq_of_lt (by omega)]

/-- Settles O46, by the frame of the four effects. -/
theorem systemCommandsTouchNoBuffer : Obligations.SystemCommandsTouchNoBuffer := by
  intro i s t hi hexec
  obtain ⟨-, rfl⟩ := (exec_next_iff i s t).mp hexec
  exact effect_system_frame hi s

end Sys2Proof.Machine
end

section
/-! PROOFS. Completion codes (60_exceptions.md): an idle engine accepts every instruction, and RANGE is the code of exactly the
instructions that name a place that does not exist. -/

namespace Sys2Proof.Machine

/-! ## Where no place exists -/

/-- R189's list: the message is wider than the memory, the column is not live, or it lies beyond the row-select column. -/
def State.HasNoPlaceFor (s : State) (i : Instr) : Prop :=
  (∃ w, i = .newmsg w ∧ w.toNat > s.params.wmax) ∨
  (∃ row col data, i = .ldmsg row col data ∧ col.toNat ≥ s.w.toNat) ∨
  (∃ row col, i = .rdmb row col ∧ col.toNat ≥ s.w.toNat) ∨
  (∃ row col, i = .rdhb row col ∧ col.toNat > s.params.n)

theorem effect_rdhb_of_le (row : BitVec 3) {col : BitVec 16} {s : State} (hcol : col.toNat ≤ s.params.n) :
    effect (.rdhb row col) s = s.complete .ok 0#16 (s.hbByte (rowIndex row) col.toNat) := if_neg (Nat.not_lt_of_le hcol)

theorem effect_rdhb_of_gt (row : BitVec 3) {col : BitVec 16} {s : State} (hcol : s.params.n < col.toNat) :
    effect (.rdhb row col) s = s.raiseError .range := if_pos hcol

/-- An instruction that names no place completes RANGE and does nothing before. -/
theorem effect_of_hasNoPlaceFor {i : Instr} {s : State} (h : s.HasNoPlaceFor i) : effect i s = s.raiseError .range := by
  rcases h with ⟨w, rfl, hw⟩ | ⟨row, col, data, rfl, hcol⟩ | ⟨row, col, rfl, hcol⟩ | ⟨row, col, rfl, hcol⟩
  · exact effect_newmsg_of_gt hw
  · exact effect_ldmsg_of_ge row data hcol
  · exact effect_rdmb_of_ge row hcol
  · exact effect_rdhb_of_gt row hcol

/-! ## Which code was returned -/

/-- What an instruction does to the responses where it completes RANGE (30_encoding.md R92, 60_exceptions.md R189). -/
def State.ReturnsRange (s t : State) : Prop :=
  ∃ aux data, t.responses = s.responses ++ [responseWord .range aux data]

theorem State.returnsRange_raiseError (s : State) : s.ReturnsRange (s.raiseError .range) := ⟨0#16, 0#8, rfl⟩

/-- The code is read off the response word: one built with another code is never a RANGE response. -/
theorem code_of_responseWord_eq_range {c : Code} {aux aux' : BitVec 16} {data data' : BitVec 8}
    (h : responseWord c aux data = responseWord .range aux' data') : c = .range := by
  have hbyte : c.bits ++ 0#4 = Code.range.bits ++ 0#4 := by
    rw [← code_responseWord c aux data, h, code_responseWord]
  cases c with
  | range => rfl
  | _ => exact absurd hbyte (by decide)

theorem State.not_returnsRange_of_responses_eq {s t : State} (h : t.responses = s.responses) : ¬ s.ReturnsRange t := by
  rintro ⟨aux, data, hrange⟩
  simp [h] at hrange

theorem State.not_returnsRange_respond {s u : State} (hu : u.responses = s.responses) {code : Code} (hcode : code ≠ .range)
    (aux : BitVec 16) (data : BitVec 8) : ¬ s.ReturnsRange (u.respond (responseWord code aux data)) := by
  rintro ⟨aux', data', hrange⟩
  rw [State.respond_responses, hu, List.append_cancel_left_eq, List.singleton_inj] at hrange
  exact hcode (code_of_responseWord_eq_range hrange)

theorem State.not_returnsRange_raiseError {s u : State} (hu : u.responses = s.responses) {code : Code}
    (hcode : code ≠ .range) : ¬ s.ReturnsRange (u.raiseError code) := by
  rw [State.raiseError_eq]
  exact State.not_returnsRange_respond hu hcode 0#16 0#8

theorem State.not_returnsRange_completeOk {s u : State} (hu : u.responses = s.responses) : ¬ s.ReturnsRange u.completeOk :=
  State.not_returnsRange_raiseError hu (code := .ok) (by decide)

/-- A transmission ends with OK or TX_FAIL, or without a response (43_transmit.md R152, R153, R156). -/
theorem State.not_returnsRange_finish {s u : State} (hu : u.responses = s.responses) (off : Option Nat)
    (result : TxResult) : ¬ s.ReturnsRange (u.finish off result) := by
  cases result with
  | done => exact State.not_returnsRange_completeOk hu
  | failed => exact State.not_returnsRange_raiseError hu (by decide)
  | stalled row => exact State.not_returnsRange_of_responses_eq hu

/-- An instruction whose place exists, or that names none, returns another code or no response. -/
theorem not_returnsRange_effect {i : Instr} {s : State} (h : ¬ s.HasNoPlaceFor i) : ¬ s.ReturnsRange (effect i s) := by
  cases i with
  | newmsg w =>
    have hw : w.toNat ≤ s.params.wmax := Nat.le_of_not_lt fun hw => h (.inl ⟨w, rfl, hw⟩)
    rw [effect_newmsg_of_le hw]
    exact State.not_returnsRange_completeOk rfl
  | ldmsg row col data =>
    have hcol : col.toNat < s.w.toNat := Nat.lt_of_not_le fun hcol => h (.inr (.inl ⟨row, col, data, rfl, hcol⟩))
    rw [effect_ldmsg_of_lt row data hcol]
    exact State.not_returnsRange_completeOk rfl
  | rdmb row col =>
    have hcol : col.toNat < s.w.toNat := Nat.lt_of_not_le fun hcol => h (.inr (.inr (.inl ⟨row, col, rfl, hcol⟩)))
    rw [effect_rdmb_of_lt row hcol, State.complete_ok_eq]
    exact State.not_returnsRange_respond rfl (by decide) _ _
  | rdhb row col =>
    have hcol : col.toNat ≤ s.params.n := Nat.le_of_not_lt fun hcol => h (.inr (.inr (.inr ⟨row, col, rfl, hcol⟩)))
    rw [effect_rdhb_of_le row hcol, State.complete_ok_eq]
    exact State.not_returnsRange_respond rfl (by decide) _ _
  | xmit => exact State.not_returnsRange_finish rfl _ _
  | display offset =>
    by_cases hw : s.w = 0#16
    · rw [effect_display_of_w_eq_zero offset hw]
      exact State.not_returnsRange_completeOk rfl
    · rw [effect_display_of_w_ne_zero offset hw]
      exact State.not_returnsRange_finish rfl _ _
  | scroll start =>
    by_cases hw : s.w = 0#16
    · rw [effect_scroll_of_w_eq_zero start hw]
      exact State.not_returnsRange_completeOk rfl
    · rw [effect_scroll_of_w_ne_zero start hw]
      exact State.not_returnsRange_finish (by rw [State.sweep_frame]) _ _
  | rdst => exact State.not_returnsRange_respond rfl (by decide) _ _
  | rdcfg => exact State.not_returnsRange_respond rfl (by decide) _ _
  | reservedE low => exact State.not_returnsRange_raiseError rfl (by decide)
  | reservedF low => exact State.not_returnsRange_raiseError rfl (by decide)
  | _ => exact State.not_returnsRange_completeOk rfl

theorem returnsRange_effect_iff (i : Instr) (s : State) : s.ReturnsRange (effect i s) ↔ s.HasNoPlaceFor i := by
  refine ⟨not_imp_not.mp not_returnsRange_effect, fun h => ?_⟩
  rw [effect_of_hasNoPlaceFor h]
  exact s.returnsRange_raiseError

/-! ## The obligations -/

/-- Settles O9: the channel's check passes in an idle engine, and every instruction has an effect. -/
theorem everyInstructionRuns : Obligations.EveryInstructionRuns := fun i s hidle => ⟨effect i s, exec_of_idle i hidle⟩

/-- Settles O49: the instructions of R189's list complete RANGE at once, and no other returns that code. -/
theorem rangeExactlyWhereNoPlaceExists : Obligations.RangeExactlyWhereNoPlaceExists := fun i s hidle =>
  ⟨effect i s, exec_of_idle i hidle, returnsRange_effect_iff i s, fun h =>
    (effect_of_hasNoPlaceFor h).trans s.raiseError_range⟩

end Sys2Proof.Machine
end

section
/-! PROOFS. Reset (70_reset_and_hazards.md): it is taken in every state, and what a command it cuts leaves of the record. -/

namespace Sys2Proof.Machine

/-! ## The host's reset inputs -/

/-- Reset is taken whatever the engine does (70_reset_and_hazards.md R216, R217). -/
theorem step_reset {s : State} {rest : List HostInput} (hhost : s.host = .reset :: rest) :
    step s = .next (s.withHost rest).afterReset := by
  simp only [step, State.fetch, hhost]

/-- A word accepted by an idle engine and cut by reset leaves the cut of the state its run would have reached (R217). -/
theorem step_commandThenReset_of_idle {s t : State} {cw : Word} {writes : Nat} {rest : List HostInput}
    (hidle : s.engine = .idle) (hhost : s.host = .commandThenReset cw writes :: rest)
    (hrun : runWord cw (s.withHost rest) = .next t) : step s = .next ((s.withHost rest).cutByReset t writes) := by
  have hbusy : (s.withHost rest).busy = false := (s.withHost rest).busy_eq_false.mpr hidle
  simp [step, State.fetch, hhost, hbusy, runCut, hrun]

/-! ## The record of a cut command -/

/-- A word that an idle engine runs only adds to the record of row writes. -/
theorem exists_runWord_log_of_idle (cw : Word) {s : State} (hidle : s.engine = .idle) :
    ∃ t ws, runWord cw s = .next t ∧ t.link.log = s.link.log ++ ws := by
  obtain ⟨_, hrun, i, rfl⟩ := runWord_of_idle cw s hidle
  obtain ⟨ws, hlog⟩ := effect_log i s
  exact ⟨_, ws, hrun, hlog⟩

/-- A cut command has issued the first `writes` of the row writes it would have issued (R217). -/
theorem Link.log_cutAfter {before after : Link} {ws : List RowWrite} (h : after.log = before.log ++ ws) (writes : Nat) :
    (before.cutAfter after writes).log = before.log ++ ws.take writes := by
  simp [Link.cutAfter, h]

/-! ## The obligations -/

/-- Settles O60: the command would have added some writes to the record, and the cut keeps the first of them. -/
theorem cutCommandLeavesResetState : Obligations.CutCommandLeavesResetState := by
  intro s cw writes rest hidle hhost
  obtain ⟨t, ws, hrun, hlog⟩ := exists_runWord_log_of_idle cw (s := s.withHost rest) hidle
  have hcut : ((s.withHost rest).cutByReset t writes).link.log = s.link.log ++ ws.take writes :=
    Link.log_cutAfter hlog writes
  refine ⟨t, _, hrun, step_commandThenReset_of_idle hidle hhost hrun, rfl, ws.take writes, hcut, ?_,
    List.length_take_le .., fun hfew => ?_⟩
  · rw [hlog, State.withHost_link]
    exact (List.prefix_append_right_inj _).mpr (List.take_prefix writes ws)
  · have hle : ws.length ≤ writes := by
      rw [hlog, State.withHost_link, List.length_append] at hfew
      omega
    rw [hcut, hlog, List.take_of_length_le hle, State.withHost_link]

/-- Settles O59: the state after a reset is the one it names, and reset is taken in every state. -/
theorem resetEndsAnyCommand : Obligations.ResetEndsAnyCommand := fun _ _ => step_reset

end Sys2Proof.Machine
end
